-- ==== Sys2Proof/Word.lean ====
section
/-! DEFINITION. Bytes, 64-bit words and the operand width (spec/00_scope.md rules R8, R9, R10). -/

namespace Sys2Proof

/-- A memory byte, 8 bits (R8, "byte size"). -/
abbrev Byte := BitVec 8

/-- The content of one register slot, an unsigned 64-bit value (R8, R10). -/
abbrev Word := BitVec 64

/-- The operand width of one instruction, 32 or 64 bits (R113). -/
inductive Width where
  | w32
  | w64
deriving DecidableEq, Repr

end Sys2Proof
end

