-- ==== Sys2Proof/Syntax.lean ====
section
/-! DEFINITION. The instructions: one constructor per row of spec/opcode_table.json (spec/30_encoding.md R111, R118). -/

namespace Sys2Proof

/-- What one byte in opcode position, with its operand bytes, stands for. Register fields are the three bits of
the encoding (R114); no encoding reaches slots 8 to 17. -/
inductive Instr where
  /-- Row PREFIX.W64, format P: the byte 0x48 (R112, R154). -/
  | prefixW64
  /-- Row PUSH, format O (R180). -/
  | push (reg : BitVec 3)
  /-- Row POP, format O (R181). -/
  | pop (reg : BitVec 3)
  /-- Row MOV_RM_R, format M; `mod` is kept because it is encoded, though the core ignores it (R116, R200). -/
  | movRmR (mod : BitVec 2) (src dst : BitVec 3)
  /-- Row MOV_R_IMM32, format OI32, at operand width 32 (R201). -/
  | movRImm32 (reg : BitVec 3) (imm : BitVec 32)
  /-- Row MOV_R_IMM64, format OI64, at operand width 64 (R202). -/
  | movRImm64 (reg : BitVec 3) (imm : BitVec 64)
  /-- Row RET, format Z (R220). -/
  | ret
  /-- Row ILLEGAL: any of the 229 other byte values in opcode position (R119, R157). -/
  | illegal (byte : Byte)
deriving DecidableEq, Repr

end Sys2Proof
end

