-- ==== Sys2Proof/WellFormed.lean ====
section
/-! DEFINITION. Which instructions can stand where (spec/30_encoding.md rules R113, R118). -/

namespace Sys2Proof

/-- The six ranges of byte values that rule R118 marks illegal in opcode position. -/
def illegalByte (b : Byte) : Bool :=
  let n := b.toNat
  n ≤ 0x47 || (0x49 ≤ n && n ≤ 0x4F) || (0x60 ≤ n && n ≤ 0x88) || (0x8A ≤ n && n ≤ 0xB7) ||
    (0xC0 ≤ n && n ≤ 0xC2) || 0xC4 ≤ n

/-- `i.wf w`: the instruction `i` can be decoded when the prefix scan has resolved the operand width `w`. The
4-byte immediate needs width 32 and the 8-byte immediate width 64 (R113); an `illegal` byte is one that R118
marks illegal. Every other field value is accepted (R120). -/
def Instr.wf (w : Width) : Instr → Bool
  | .prefixW64 => true
  | .push _ => true
  | .pop _ => true
  | .movRmR _ _ _ => true
  | .movRImm32 _ _ => w = .w32
  | .movRImm64 _ _ => w = .w64
  | .ret => true
  | .illegal b => illegalByte b

end Sys2Proof
end

