-- ==== Sys2Proof/Decode.lean ====
section
/-! DEFINITION. The decoder, total on any bytes, and the encoder (spec/30_encoding.md). -/

namespace Sys2Proof

/-! ### Little-endian numbers (R74, R77) -/

/-- The unsigned number whose bytes, least significant first, are the list's. -/
def leNat : List Byte → Nat
  | [] => 0
  | b :: bs => b.toNat + 256 * leNat bs

/-- The `n` low bytes of a number, least significant first. -/
def leBytes : Nat → Nat → List Byte
  | 0, _ => []
  | n + 1, v => BitVec.ofNat 8 v :: leBytes n (v / 256)

/-! ### Operand width (R112, R113) -/

/-- The size in bytes of the immediate of MOV r,imm at a width, `w / 8`. -/
def Width.bytes : Width → Nat
  | .w32 => 4
  | .w64 => 8

/-- The operand width after `p` prefix bytes: 64 when there is at least one (R113). -/
def widthAfter (p : Nat) : Width := if p = 0 then .w32 else .w64

/-! ### Fields (R111, R114, R116) -/

/-- Bits 2:0 of an opcode byte, the register field. -/
def opcodeReg (b : Byte) : BitVec 3 := b.extractLsb' 0 3

/-- Bits 7:6 of a ModRM byte, which the core ignores. -/
def modrmMod (m : Byte) : BitVec 2 := m.extractLsb' 6 2

/-- Bits 5:3 of a ModRM byte, the source register. -/
def modrmSrc (m : Byte) : BitVec 3 := m.extractLsb' 3 3

/-- Bits 2:0 of a ModRM byte, the destination register. -/
def modrmDst (m : Byte) : BitVec 3 := m.extractLsb' 0 3

/-! ### One opcode with its operand bytes (R117, R118, R152) -/

/-- How many operand bytes follow the byte `b` in opcode position at width `w` (R110, R117). -/
def operandBytes (w : Width) (b : Byte) : Nat :=
  if b = 0x89 then 1
  else if 0xB8 ≤ b ∧ b ≤ 0xBF then w.bytes
  else 0

/-- What the byte `b` in opcode position decodes to at width `w`, where the operand bytes are the little-endian
number `v` (R118, R152). Every byte value is answered: the last case is the ILLEGAL row. -/
def decodeOpcode (w : Width) (b : Byte) (v : Nat) : Instr :=
  if b = 0x48 then .prefixW64
  else if 0x50 ≤ b ∧ b ≤ 0x57 then .push (opcodeReg b)
  else if 0x58 ≤ b ∧ b ≤ 0x5F then .pop (opcodeReg b)
  else if b = 0x89 then
    .movRmR (modrmMod (BitVec.ofNat 8 v)) (modrmSrc (BitVec.ofNat 8 v)) (modrmDst (BitVec.ofNat 8 v))
  else if 0xB8 ≤ b ∧ b ≤ 0xBF then
    match w with
    | .w32 => .movRImm32 (opcodeReg b) (BitVec.ofNat 32 v)
    | .w64 => .movRImm64 (opcodeReg b) (BitVec.ofNat 64 v)
  else if b = 0xC3 then .ret
  else .illegal b

/-- Why a list of bytes holds no whole instruction. In the machine each of the two is a MemoryFault of the fetch,
since bytes run out only at the end of memory (R151, R332). -/
inductive DecodeRefusal where
  /-- There is no byte in opcode position. -/
  | noOpcode
  /-- The opcode needs `need` operand bytes and only `have_` follow it. -/
  | truncated (need have_ : Nat)
deriving DecidableEq, Repr

/-- Decode the byte in opcode position and its operand bytes at width `w`; the bytes after them are handed back. -/
def decode (w : Width) : List Byte → Except DecodeRefusal (Instr × List Byte)
  | [] => .error .noOpcode
  | b :: bs =>
    if bs.length < operandBytes w b then .error (.truncated (operandBytes w b) bs.length)
    else .ok (decodeOpcode w b (leNat (bs.take (operandBytes w b))), bs.drop (operandBytes w b))

/-! ### A whole instruction: prefixes, opcode, operands (R110, R112, R123) -/

/-- The prefix scan on a list of bytes: how many 0x48 bytes stand first, and what follows them. -/
def scanPrefixes : List Byte → Nat × List Byte
  | [] => (0, [])
  | b :: bs => if b = 0x48 then ((scanPrefixes bs).1 + 1, (scanPrefixes bs).2) else (0, b :: bs)

/-- Decode a whole instruction: the number of its prefixes, the instruction they lead to, the bytes after it. -/
def decodeWhole (bytes : List Byte) : Except DecodeRefusal (Nat × Instr × List Byte) :=
  match decode (widthAfter (scanPrefixes bytes).1) (scanPrefixes bytes).2 with
  | .error e => .error e
  | .ok (i, rest) => .ok ((scanPrefixes bytes).1, i, rest)

/-! ### The encoder (R111) -/

/-- The bytes of an instruction in address order. -/
def encode : Instr → List Byte
  | .prefixW64 => [0b01001000#8]
  | .push r => [0b01010#5 ++ r]
  | .pop r => [0b01011#5 ++ r]
  | .movRmR m s d => [0b10001001#8, m ++ s ++ d]
  | .movRImm32 r imm => (0b10111#5 ++ r) :: leBytes 4 imm.toNat
  | .movRImm64 r imm => (0b10111#5 ++ r) :: leBytes 8 imm.toNat
  | .ret => [0b11000011#8]
  | .illegal b => [b]

/-- The bytes of a whole instruction: `p` prefixes and then the instruction. -/
def encodeWhole (p : Nat) (i : Instr) : List Byte := List.replicate p 0x48#8 ++ encode i

/-- The number of bytes an instruction takes from its opcode byte on (R110); `illegal` counts the byte itself. -/
def Instr.length : Instr → Nat
  | .prefixW64 => 1
  | .push _ => 1
  | .pop _ => 1
  | .movRmR _ _ _ => 2
  | .movRImm32 _ _ => 5
  | .movRImm64 _ _ => 9
  | .ret => 1
  | .illegal _ => 1

/-- The longest row of the opcode table, in bytes (MOV_R_IMM64). -/
def longestRow : Nat := 9

/-- The width at which a row of the opcode table is decoded. Only MOV_R_IMM64, the one row longer than 40 bits,
stands after a prefix (its row's "condition"). -/
def tableWidth (nbits : Nat) : Width := if 40 < nbits then .w64 else .w32

/-- The instruction the decoder reads from a row's bits, numbered as spec/opcode_table.json numbers them: byte `k`
of the row is bits `8k+7:8k`. -/
def decodeTableWord (nbits w : Nat) : Option Instr :=
  match decode (tableWidth nbits) (leBytes longestRow w) with
  | .ok (i, _) => some i
  | .error _ => none

end Sys2Proof
end

