-- ==== Sys2Proof/Config.lean ====
section
/-! DEFINITION. The parameters one machine is built with (spec/00_scope.md rule R8, decisions D1 and D5). -/

namespace Sys2Proof

/-- The two open parameters of rule R8. They are plain data that the state carries and no step changes, so a
statement about every state holds for every value of them (DESIGN CHOICE, notes/assumptions/1.md).
The core has no free value: every value an instruction leaves is fixed by the spec. -/
structure Config where
  /-- `N = MEM_SIZE`, the number of bytes of guest memory (D1). -/
  memSize : Nat
  /-- `EXIT_BITS`, how many low-order bits of the accumulator form the exit code (D5). -/
  exitBits : Nat
deriving DecidableEq, Repr

/-- The ranges rule R8 gives the two parameters: `8 <= N < 2^64` and `1 <= EXIT_BITS <= 64`. -/
abbrev Config.wf (c : Config) : Prop :=
  8 ≤ c.memSize ∧ c.memSize < 2 ^ 64 ∧ 1 ≤ c.exitBits ∧ c.exitBits ≤ 64

/-- The parameters `State.reset` is built with: `N = 0x10000`, the value of the spec's test vectors (D1), and
`EXIT_BITS = 32`, the value it recommends (D5). DESIGN CHOICE, notes/assumptions/1.md. -/
def Config.reset : Config := { memSize := 0x10000, exitBits := 32 }

end Sys2Proof
end

