-- ==== Sys2Proof/Machine/State.lean ====
section
/-! DEFINITION. The machine's state as plain data (spec/10_state.md, whole tuple: rule R52), the reasons a step can
stop, and the state after reset. -/

namespace Sys2Proof.Machine

/-! ### Register slots (R30, R11) -/

/-- The index of a register slot; the domain is exactly `0..17` (R31). -/
abbrev Slot := Fin 18

abbrev RAX : Slot := 0
abbrev RCX : Slot := 1
abbrev RDX : Slot := 2
abbrev RBX : Slot := 3
abbrev RSP : Slot := 4
abbrev RBP : Slot := 5
abbrev RSI : Slot := 6
abbrev RDI : Slot := 7
abbrev R8 : Slot := 8
abbrev R9 : Slot := 9
abbrev R10 : Slot := 10
abbrev R11 : Slot := 11
abbrev R12 : Slot := 12
abbrev R13 : Slot := 13
abbrev R14 : Slot := 14
abbrev R15 : Slot := 15
/-- The instruction pointer, `pc` (R37). -/
abbrev IP : Slot := 16
/-- 64 bits of storage that no instruction reads or writes (R40). -/
abbrev FLAGS : Slot := 17

/-! ### Engine control state (R43, R331, R332) -/

/-- A fault of the engine with what it records. The spec describes what taking one does (R338), so it is a NEXT state
of the machine, never `Host.Outcome.fault`. -/
inductive EngineFault where
  /-- The byte in opcode position at `addr` is illegal (R331). -/
  | decodeFault (addr : Word) (byte : Byte)
  /-- An access of `n` bytes at `addr` does not lie inside memory (R332). -/
  | memoryFault (addr : Word) (n : Nat)
deriving DecidableEq, Repr

/-- The two ways a run ends (R43, R396). -/
inductive Halt where
  /-- The instruction pointer equalled the sentinel at a boundary; `code` is the exit code. -/
  | exited (code : Nat)
  /-- A fault ended an activation or the start. -/
  | faulted (f : EngineFault)
deriving DecidableEq, Repr

/-- The engine phase (R43). -/
inductive Phase where
  /-- Blocked on the next step token, at an instruction boundary. -/
  | waiting
  /-- Running one activation whose prefix scan has so far resolved the operand width `w` (R45). Never the phase of a
  state the driver can observe (R234, D21). -/
  | executing (w : Width)
  /-- Terminal. -/
  | halted (h : Halt)
deriving DecidableEq, Repr

/-- Guest memory: the bytes that differ from zero, at strictly rising addresses (R47; the canonical form is
`Memory.wf`). An unlisted address reads as zero ("zero-initialized"). -/
abbrev Memory := List Host.Cell

/-- The whole state of one machine (R52). -/
structure State where
  /-- The parameters the machine was built with; no step changes them. -/
  cfg : Config
  /-- The register file, 18 slots (R30). -/
  regs : Vector Word 18
  /-- Guest memory (R47). -/
  mem : Memory
  /-- The engine phase (R43). -/
  phase : Phase
  /-- The token slot of the step controller (R44). -/
  token : Bool
deriving DecidableEq, Repr

/-- The immutable descriptor the loader produces and start reads once (R46): configuration, not state. -/
structure Process where
  loadAddress : Word
  entryPoint : Word
  imageBytes : List Byte
deriving DecidableEq, Repr

/-! ### Outcomes -/

/-- Why a step could stop with no next state. There is no such reason in this core: both faults the spec names have a
described effect (the phase becomes `halted (faulted f)`, R338) and are next states. Nobody raises one. -/
inductive Fault where
deriving DecidableEq, Repr

/-- Why an instruction could have no meaning. -/
inductive Refusal where
  /-- An arm of `exec` whose instruction has no meaning yet; raised by `exec` only, safe. No arm raises it. -/
  | notModelled (mnemonic : String)
deriving DecidableEq, Repr

/-- The machine right after reset (R49, R380) with the parameters of `Config.reset` and a Process whose image is empty
and whose entry point is 0 (DESIGN CHOICE, notes/assumptions/2.md): the sentinel cell holds `N - 8 = 0xFFF8`, the stack
pointer addresses it, every other register is zero (D6), the token slot is empty (D20). -/
def State.reset : State where
  cfg := Config.reset
  regs := #v[0, 0, 0, 0, 0xFFF8, 0, 0, 0, 0, 0, 0, 0, 0, 0, 0, 0, 0, 0]
  mem := [(0xFFF8, 0xF8), (0xFFF9, 0xFF)]
  phase := .waiting
  token := false

end Sys2Proof.Machine
end

