-- ==== Sys2Proof/Machine/Ops.lean ====
section
/-! DEFINITION. The named operations over registers and memory (spec/10_state.md, spec/20_memory.md), taking a fault
(spec/60_exceptions.md R338) and the boundary check (spec/40_execution_cycle.md R155). -/

namespace Sys2Proof.Machine

/-! ### The register file (R31) -/

/-- `x[i]`: the 64 bits of slot `i`. -/
def State.getReg (s : State) (i : Slot) : Word := s.regs.get i

/-- `x[i] <- v`: all 64 bits of slot `i` are replaced, and nothing else (R31, R32). -/
def State.setReg (s : State) (i : Slot) (v : Word) : State := { s with regs := s.regs.set i.val v i.isLt }

/-! ### Memory as a list in canonical form (R47, R81) -/

/-- The canonical form: addresses strictly rising, and no listed byte zero, the value an unlisted address reads as. -/
def Memory.wf : Memory → Bool
  | [] => true
  | (a, v) :: rest => v ≠ 0 && rest.all (fun c => a < c.1) && Memory.wf rest

/-- Every listed address lies in `0..n-1`. -/
def Memory.within (n : Nat) (m : Memory) : Bool := m.all (fun c => c.1 < n)

/-- `Mem[a]`. An unlisted address reads as zero: memory is "zero-initialized" (R47). -/
def Memory.read : Memory → Nat → Byte
  | [], _ => 0
  | (b, v) :: rest, a => if a = b then v else Memory.read rest a

/-- `Mem[a] <- v`. Writing zero removes the entry. -/
def Memory.write : Memory → Nat → Byte → Memory
  | [], a, v => if v = 0 then [] else [(a, v)]
  | (b, u) :: rest, a, v =>
    if a < b then (if v = 0 then (b, u) :: rest else (a, v) :: (b, u) :: rest)
    else if a = b then (if v = 0 then rest else (a, v) :: rest)
    else (b, u) :: Memory.write rest a v

/-- The `n` bytes from address `a` up, in address order. -/
def Memory.readBytes (m : Memory) : Nat → Nat → List Byte
  | _, 0 => []
  | a, n + 1 => m.read a :: Memory.readBytes m (a + 1) n

/-- Write a list of bytes from address `a` up. -/
def Memory.writeBytes (m : Memory) : Nat → List Byte → Memory
  | _, [] => m
  | a, b :: bs => (Memory.writeBytes m (a + 1) bs).write a b

/-! ### Bounds, and the three memory primitives (R73 to R76) -/

/-- An access of `n` bytes at `a` is in range exactly when `a + n <= N`, in unbounded arithmetic (R73, D24). -/
abbrev State.inRange (s : State) (a : Word) (n : Nat) : Prop := a.toNat + n ≤ s.cfg.memSize

/-- `MemRead(a, n)`: the unsigned `8n`-bit number whose byte `k` is `Mem[a + k]`, or a MemoryFault (R74). -/
def memRead (s : State) (a : Word) (n : Nat) : Except EngineFault Nat :=
  if s.inRange a n then .ok (leNat (s.mem.readBytes a.toNat n)) else .error (.memoryFault a n)

/-- `MemWrite(a, n, v)`: byte `k` of `v` goes to `Mem[a + k]`, or a MemoryFault and no byte changes (R75). -/
def memWrite (s : State) (a : Word) (n : Nat) (v : Nat) : Except EngineFault State :=
  if s.inRange a n then .ok { s with mem := s.mem.writeBytes a.toNat (leBytes n v) }
  else .error (.memoryFault a n)

/-- `Fetch(a) = MemRead(a, 1)`: instruction bytes come from the same memory, read at the time of the activation (R76, R89). -/
def fetchByte (s : State) (a : Word) : Except EngineFault Byte :=
  match memRead s a 1 with
  | .ok v => .ok (BitVec.ofNat 8 v)
  | .error f => .error f

/-! ### The instruction pointer -/

/-- `x[IP]`. -/
def State.ip (s : State) : Word := s.getReg IP

/-- `pc <- pc + n`: the address after the last byte consumed, where `pc` holds the address `A` of the opcode byte (R153). -/
def State.advance (s : State) (n : Nat) : State := s.setReg IP (s.ip + BitVec.ofNat 64 n)

/-! ### Taking a fault (R338, R340). There is no return from one (R341): `halted` is terminal. -/

/-- Fault entry: the phase becomes `Halted(Faulted(kind, info))` and nothing else changes. -/
def raise (f : EngineFault) (s : State) : State := { s with phase := .halted (.faulted f) }

/-! ### The boundary check (R155, R156) -/

/-- `SENTINEL = N - 8`, computed from `N` and not read from memory (R48). -/
def State.sentinel (s : State) : Word := BitVec.ofNat 64 (s.cfg.memSize - 8)

/-- `x[RAX][EXIT_BITS-1:0]` (R156). -/
def State.exitCode (s : State) : Nat := (s.getReg RAX).toNat % 2 ^ s.cfg.exitBits

/-- The boundary check: a normal exit when the instruction pointer equals the sentinel, else `Waiting`. -/
def boundary (s : State) : State :=
  { s with phase := if s.ip = s.sentinel then .halted (.exited s.exitCode) else .waiting }

/-- The end of an activation: the boundary check, unless the instruction took a fault (R150). -/
def finish (s : State) : State :=
  match s.phase with
  | .halted _ => s
  | .waiting => boundary s
  | .executing _ => boundary s

/-! ### The engine's side of the token slot (R232) -/

/-- Consume the token and begin an activation: `token <- 0`, `phase <- Executing`, `w <- 32` (R150, R151). -/
def consume (s : State) : State := { s with token := false, phase := .executing .w32 }

/-- The operand width the prefix scan has resolved so far; 32 outside an activation (R45). -/
def State.width (s : State) : Width :=
  match s.phase with
  | .executing w => w
  | .waiting => .w32
  | .halted _ => .w32

end Sys2Proof.Machine
end

