-- ==== Sys2Proof/Machine/Operands.lean ====
section
/-! DEFINITION. Every operand form of the core: the register field, the two immediates and the stack pointer's addresses
(spec/30_encoding.md R114 to R116, spec/41_push_pop.md R184). -/

namespace Sys2Proof.Machine

/-- The slot a 3-bit register field selects: RAX, RCX, RDX, RBX, RSP, RBP, RSI, RDI for 0 to 7 (R30, R114). -/
def slotOf (r : BitVec 3) : Slot := ⟨r.toNat, Nat.lt_trans r.isLt (by decide)⟩

/-- `zext_64` of the 4-byte immediate (R115, D3). -/
def zext64 (imm : BitVec 32) : Word := imm.setWidth 64

/-- The address PUSH stores to, `t = (x[RSP] - 8) mod 2^64` (R180, R184). -/
def pushAddress (s : State) : Word := s.getReg RSP - 8

/-- The address POP and RET read from, `x[RSP]` (R181, R184, R220). -/
def popAddress (s : State) : Word := s.getReg RSP

/-- The value PUSH stores: the register's, or the already decremented stack pointer for PUSH RSP (R180, D11). -/
def pushValue (reg : BitVec 3) (s : State) : Word :=
  if slotOf reg = RSP then pushAddress s else s.getReg (slotOf reg)

end Sys2Proof.Machine
end

