-- ==== Sys2Proof/Machine/Control.lean ====
section
/-! DEFINITION. RET, the core's only control transfer (spec/43_ret.md). -/

namespace Sys2Proof.Machine

/-- RET (R220): the popped value becomes the instruction pointer with no advance added; it is not checked. -/
def execRet (s : State) : Host.Outcome State Fault Refusal :=
  match memRead s (popAddress s) 8 with
  | .error f => .next (raise f s)
  | .ok t => .next ((s.setReg RSP (popAddress s + 8)).setReg IP (BitVec.ofNat 64 t))

end Sys2Proof.Machine
end

