-- ==== Sys2Proof/Machine/Flags.lean ====
section
/-! DEFINITION. The FLAGS slot. The core computes no flag: no instruction reads or writes the slot and no bit of it has a
meaning (spec/00_scope.md R13, spec/10_state.md R40), so there is no flag computation to define. -/

namespace Sys2Proof.Machine

/-- The 64 bits of the FLAGS slot, storage only (R40). -/
def State.flags (s : State) : Word := s.getReg FLAGS

end Sys2Proof.Machine
end

