-- ==== Sys2Proof/Machine/Move.lean ====
section
/-! DEFINITION. MOV r/m,r and MOV r,imm (spec/42_mov.md). The operand bytes, and the MemoryFault of reading them, belong to
fetching the instruction (Machine/Activation.lean); on entry `x[IP]` is the opcode's address `A`. -/

namespace Sys2Proof.Machine

/-- MOV r/m,r, register form only: all 64 bits are copied whatever the operand width, and ModRM bits 7:6 are ignored
(R200, D10, D12). -/
def execMovRmR (_mod : BitVec 2) (src dst : BitVec 3) (s : State) : Host.Outcome State Fault Refusal :=
  .next ((s.setReg (slotOf dst) (s.getReg (slotOf src))).advance 2)

/-- MOV r,imm32: the whole slot becomes the zero-extended immediate (R201, D3). -/
def execMovRImm32 (reg : BitVec 3) (imm : BitVec 32) (s : State) : Host.Outcome State Fault Refusal :=
  .next ((s.setReg (slotOf reg) (zext64 imm)).advance 5)

/-- MOV r,imm64 (R202). -/
def execMovRImm64 (reg : BitVec 3) (imm : BitVec 64) (s : State) : Host.Outcome State Fault Refusal :=
  .next ((s.setReg (slotOf reg) imm).advance 9)

end Sys2Proof.Machine
end

