-- ==== Sys2Proof/Machine/Scan.lean ====
section
/-! DEFINITION. The two rows of the opcode table that are not instructions of their own: the prefix 0x48 and the illegal
byte (spec/40_execution_cycle.md R154, R157). -/

namespace Sys2Proof.Machine

/-- PREFIX.W64 (R151, R154): `x[IP] <- x[IP] + 1 ; w <- 64`; the activation goes on with the next byte. -/
def execPrefixW64 (s : State) : Host.Outcome State Fault Refusal :=
  .next { s.advance 1 with phase := .executing .w64 }

/-- ILLEGAL (R157): `raise DecodeFault(A, b)`. -/
def execIllegal (byte : Byte) (s : State) : Host.Outcome State Fault Refusal :=
  .next (raise (.decodeFault s.ip byte) s)

end Sys2Proof.Machine
end

