-- ==== Sys2Proof/Machine/Stack.lean ====
section
/-! DEFINITION. PUSH r64 and POP r64 (spec/41_push_pop.md). On entry `x[IP]` is the opcode's address `A`. -/

namespace Sys2Proof.Machine

/-- PUSH r64 (R180): the store comes before the stack pointer's update, so a fault leaves everything as it was. -/
def execPush (reg : BitVec 3) (s : State) : Host.Outcome State Fault Refusal :=
  match memWrite s (pushAddress s) 8 (pushValue reg s).toNat with
  | .error f => .next (raise f s)
  | .ok s' => .next ((s'.setReg RSP (pushAddress s)).advance 1)

/-- The two register writes of POP, in the spec's order: the second reads the stack pointer after the first, so POP RSP
ends at the popped value plus 8 (R181, D11). -/
def popInto (reg : BitVec 3) (v : Word) (s : State) : State :=
  (s.setReg (slotOf reg) v).setReg RSP ((s.setReg (slotOf reg) v).getReg RSP + 8)

/-- POP r64 (R181). -/
def execPop (reg : BitVec 3) (s : State) : Host.Outcome State Fault Refusal :=
  match memRead s (popAddress s) 8 with
  | .error f => .next (raise f s)
  | .ok v => .next ((popInto reg (BitVec.ofNat 64 v) s).advance 1)

end Sys2Proof.Machine
end

