-- ==== Sys2Proof/Machine/Dispatch.lean ====
section
/-! DEFINITION. One arm per row of spec/opcode_table.json (the dispatch of spec/40_execution_cycle.md R152). -/

namespace Sys2Proof.Machine

def exec (i : Instr) (s : State) : Host.Outcome State Fault Refusal :=
  match i with
  | .prefixW64 => Sys2Proof.Machine.execPrefixW64 s
  | .push reg => Sys2Proof.Machine.execPush reg s
  | .pop reg => Sys2Proof.Machine.execPop reg s
  | .movRmR mod src dst => Sys2Proof.Machine.execMovRmR mod src dst s
  | .movRImm32 reg imm => Sys2Proof.Machine.execMovRImm32 reg imm s
  | .movRImm64 reg imm => Sys2Proof.Machine.execMovRImm64 reg imm s
  | .ret => Sys2Proof.Machine.execRet s
  | .illegal byte => Sys2Proof.Machine.execIllegal byte s

end Sys2Proof.Machine
end

