-- ==== Sys2Proof/Machine/Activation.lean ====
section
/-! DEFINITION. One activation: fetch, prefix scan, dispatch, boundary check (spec/40_execution_cycle.md R150 to R158). -/

namespace Sys2Proof.Machine

/-- Fetch and decode at `x[IP]` with the width resolved so far: the byte in opcode position first, then its operand
bytes in one access at `A + 1` (R76). Each access is bounds-checked, the byte in opcode position before any operand
byte (R337). For an opcode with no operand bytes the second access has length 0 and reads nothing. -/
def fetchInstr (s : State) : Except EngineFault Instr :=
  match fetchByte s s.ip with
  | .error f => .error f
  | .ok b =>
    match memRead s (s.ip + 1) (operandBytes s.width b) with
    | .error f => .error f
    | .ok v => .ok (decodeOpcode s.width b v)

/-- How many bytes of memory lie at and above the instruction pointer: the bound on what is left of a prefix scan. -/
def State.bytesLeft (s : State) : Nat := s.cfg.memSize - s.ip.toNat

/-- The rest of an activation in phase `Executing`: prefixes are scanned until another instruction is found, it is run, and
the boundary check ends the activation (R151, R158). The recursion is on the bytes left at the instruction pointer.
With none left the next fetch is out of range, which is the MemoryFault of R151. -/
def activateFrom : Nat → State → Host.Outcome State Fault Refusal
  | 0, s => .next (raise (.memoryFault s.ip 1) s)
  | n + 1, s =>
    match fetchInstr s with
    | .error f => .next (raise f s)
    | .ok i =>
      match exec i s with
      | .next t => if i = .prefixW64 then activateFrom n t else .next (finish t)
      | .fault r => .fault r
      | .refused r => .refused r

/-- The activation from the present instruction pointer on. -/
def activate (s : State) : Host.Outcome State Fault Refusal := activateFrom s.bytesLeft s

/-- A step of the engine (R150, R232). In `Waiting` with a token it consumes the token and runs one whole activation. In
`Waiting` without one it is blocked and in `Halted` it has no move: the state stays (R50, R232, R238, R349; DESIGN CHOICE,
notes/assumptions/3.md). An activation found under way is completed (notes/assumptions/4.md). -/
def engineStep (s : State) : Host.Outcome State Fault Refusal :=
  match s.phase with
  | .waiting => if s.token then activate (consume s) else .next s
  | .executing _ => activate s
  | .halted _ => .next s

/-- The bytes a row of the opcode table stands for as the first bytes of an instruction: MOV_R_IMM64 is reached only
after a prefix, so its bytes come after a 0x48 (the row's "condition", R113). Bits above `nbits` are zero. -/
def rowBytes (nbits w : Nat) : List Byte :=
  match tableWidth nbits with
  | .w32 => leBytes longestRow w
  | .w64 => 0x48#8 :: leBytes longestRow w

/-- Place bytes at the instruction pointer, as far as memory reaches, and grant the token an activation needs. -/
def placeAtIp (s : State) (bytes : List Byte) : State :=
  { s with
    mem := s.mem.writeBytes s.ip.toNat (bytes.take s.bytesLeft)
    phase := .waiting
    token := true }

end Sys2Proof.Machine
end

