-- ==== Sys2Proof/Machine/Step.lean ====
section
/-! DEFINITION. The step of the machine: one move of the engine (spec/40_execution_cycle.md R158). -/

namespace Sys2Proof.Machine

/-- One move of the engine. The driver's move is `grantStep` (Machine/Driver.lean). -/
def step (s : State) : Host.Outcome State Fault Refusal := engineStep s

/-- `s` with a row's bits stored where the next step fetches its instruction, and a token granted. -/
def State.withFetchWord (s : State) (nbits w : Nat) : State := placeAtIp s (rowBytes nbits w)

end Sys2Proof.Machine
end

