-- ==== Sys2Proof/Machine/Assembly.lean ====
section
/-! DEFINITION. The assembler notation of spec/30_encoding.md R124 (the spec's own convention, D22): the lines, the bytes
each stands for, and the listing of a decoded instruction. There are no pseudo-instructions (R125). -/

namespace Sys2Proof.Machine

/-- A line of assembly, destination first. -/
inductive AsmLine where
  | push (r : BitVec 3)
  | pop (r : BitVec 3)
  /-- `mov Rd, Rs`: the canonical spelling, with one prefix. -/
  | movRR (d s : BitVec 3)
  /-- `mov Ed, Es`: the same operation with no prefix. -/
  | movEE (d s : BitVec 3)
  /-- `mov E, imm32`. -/
  | movEImm (r : BitVec 3) (imm : BitVec 32)
  /-- `mov R, imm64`. -/
  | movRImm (r : BitVec 3) (imm : BitVec 64)
  | ret
deriving DecidableEq, Repr

/-- The byte `base + r` of the notation's table. -/
def plusReg (base : Byte) (r : BitVec 3) : Byte := base + r.setWidth 8

/-- The ModRM byte `C0 + 8*s + d`. -/
def modrmByte (d s : BitVec 3) : Byte := 0xC0 + 8 * s.setWidth 8 + d.setWidth 8

/-- The bytes a line stands for. -/
def AsmLine.bytes : AsmLine → List Byte
  | .push r => [plusReg 0x50 r]
  | .pop r => [plusReg 0x58 r]
  | .movRR d s => [0x48, 0x89, modrmByte d s]
  | .movEE d s => [0x89, modrmByte d s]
  | .movEImm r imm => plusReg 0xB8 r :: leBytes 4 imm.toNat
  | .movRImm r imm => 0x48 :: plusReg 0xB8 r :: leBytes 8 imm.toNat
  | .ret => [0xC3]

/-- How many prefixes a line has, and its instruction. -/
def AsmLine.meaning : AsmLine → Nat × Instr
  | .push r => (0, .push r)
  | .pop r => (0, .pop r)
  | .movRR d s => (1, .movRmR 0b11 s d)
  | .movEE d s => (0, .movRmR 0b11 s d)
  | .movEImm r imm => (0, .movRImm32 r imm)
  | .movRImm r imm => (1, .movRImm64 r imm)
  | .ret => (0, .ret)

/-- The spelling of a register, `rax` to `rdi` or `eax` to `edi`. -/
def regText (wide : Bool) (r : BitVec 3) : String :=
  (if wide then "r" else "e") ++ ["ax", "cx", "dx", "bx", "sp", "bp", "si", "di"].getD r.toNat ""

/-- A number in hexadecimal. -/
def hexText (n : Nat) : String := "0x" ++ String.ofList (Nat.toDigits 16 n)

/-- The listing of an instruction after `p` prefixes: any form of 0x89 is a move of registers, and ModRM bits 7:6 other
than 11 are marked. A prefix alone and an illegal byte have none. -/
def listing (p : Nat) : Instr → Option String
  | .prefixW64 => none
  | .push r => some ("push " ++ regText true r)
  | .pop r => some ("pop " ++ regText true r)
  | .movRmR m s d =>
    some ("mov " ++ regText (p ≠ 0) d ++ ", " ++ regText (p ≠ 0) s ++ if m = 0b11 then "" else " (non-canonical)")
  | .movRImm32 r imm => some ("mov " ++ regText false r ++ ", " ++ hexText imm.toNat)
  | .movRImm64 r imm => some ("mov " ++ regText true r ++ ", " ++ hexText imm.toNat)
  | .ret => some "ret"
  | .illegal _ => none

end Sys2Proof.Machine
end

