-- ==== Sys2Proof/Machine/Driver.lean ====
section
/-! DEFINITION. The step controller seen from the driver, and runs of the two agents (spec/50_step_controller.md). -/

namespace Sys2Proof.Machine

/-- The producer's answer: the token is in the slot, or the producer blocks because the slot is full (R231). -/
inductive GrantReply where
  | granted (s : State)
  | blocked
deriving DecidableEq, Repr

/-- `grant_step()`: enabled exactly when `token = 0`, in any phase; its effect is `token <- 1` (R231, R304). -/
def grantStep (s : State) : GrantReply :=
  if s.token then .blocked else .granted { s with token := true }

/-- A move of one of the two agents, the driver or the engine. -/
inductive Move where
  /-- The driver grants a token. -/
  | grant
  /-- The engine consumes a token and runs one activation. -/
  | engine
deriving DecidableEq, Repr

/-- The engine has a move exactly in `Waiting` with a token (R232). -/
def engineEnabled (s : State) : Bool := s.phase = .waiting && s.token

/-- The state after a move, or none where the agent has no such move and stays blocked (R231, R232). -/
def applyMove (s : State) : Move → Option State
  | .grant =>
    match grantStep s with
    | .granted t => some t
    | .blocked => none
  | .engine =>
    if engineEnabled s then
      match step s with
      | .next t => some t
      | .fault _ => none
      | .refused _ => none
    else none

/-- The state after a schedule of moves, or none if one of them is not enabled when its turn comes. -/
def runMoves : List Move → State → Option State
  | [], s => some s
  | m :: ms, s =>
    match applyMove s m with
    | some t => runMoves ms t
    | none => none

/-- The single-step driver's command: one token, and the engine's move on it (R236). A state in which either has no move
stays as it is. -/
def stepCommand (s : State) : State := ((applyMove s .grant).bind (applyMove · .engine)).getD s

/-- `k` commands one after another: the free-run driver, which grants whenever the slot is empty (R235), reaches the same
states. -/
def runCommands : Nat → State → State
  | 0, s => s
  | k + 1, s => runCommands k (stepCommand s)

end Sys2Proof.Machine
end

