-- ==== Sys2Proof/Machine/ElfLoader.lean ====
section
/-! DEFINITION. The ELF loader: a pure function from an image and a symbol name to a Process or a LoadError
(spec/51_elf_loader.md R260 to R277). It touches no state of the core. -/

namespace Sys2Proof.Machine

/-- The loader's errors (R260, R333). -/
inductive LoadError where
  | entryNotFound
  /-- In the contract, and never returned under its order of checks (R271). -/
  | noLoadableSection
  | malformedImage
deriving DecidableEq, Repr

/-- A file being loaded. -/
abbrev Image := List Byte

/-- The `n`-byte little-endian number at file offset `o`: `U16`, `U32` and `U64` for `n = 2, 4, 8`. Every use below stands
after a check that the bytes lie inside the image. -/
def Image.num (image : Image) (o n : Nat) : Nat := leNat ((image.drop o).take n)

/-- The byte at file offset `o`. -/
def Image.byte (image : Image) (o : Nat) : Byte := BitVec.ofNat 8 (Image.num image o 1)

/-! ### The file header (R261, R262) -/

def Image.shoff (image : Image) : Nat := image.num 40 8
def Image.shentsize (image : Image) : Nat := image.num 58 2
def Image.shnum (image : Image) : Nat := image.num 60 2

/-- The acceptance checks made before anything is looked up (R262, R276). -/
def Image.acceptable (image : Image) : Bool :=
  64 ≤ image.length && image.take 4 = [0x7F, 0x45, 0x4C, 0x46] && image.byte 4 = 2 && image.byte 5 = 1 &&
    (image.shnum = 0 || image.shentsize = 64) && image.shoff + 64 * image.shnum ≤ image.length

/-! ### Section headers (R263) -/

/-- The fields of a section header that the loader uses. -/
structure Section where
  type : Nat
  addr : Nat
  offset : Nat
  size : Nat
  link : Nat
deriving DecidableEq, Repr

/-- Section header `i`, at file offset `e_shoff + 64 * i`. -/
def Image.header (image : Image) (i : Nat) : Section where
  type := image.num (image.shoff + 64 * i + 4) 4
  addr := image.num (image.shoff + 64 * i + 16) 8
  offset := image.num (image.shoff + 64 * i + 24) 8
  size := image.num (image.shoff + 64 * i + 32) 8
  link := image.num (image.shoff + 64 * i + 40) 4

/-- The section headers in table order. -/
def Image.sections (image : Image) : List Section := (List.range image.shnum).map image.header

/-! ### Symbols (R264 to R268) -/

/-- The bytes before the first zero byte of a list, or none if it holds no zero byte. -/
def untilZero : List Byte → Option (List Byte)
  | [] => none
  | b :: bs => if b = 0 then some [] else (untilZero bs).map (b :: ·)

/-- The name that starts `st_name` bytes into the string table; its zero byte must lie inside the table and inside the
image (R264). -/
def Image.nameAt (image : Image) (str : Section) (stName : Nat) : Option (List Byte) :=
  untilZero ((image.take (str.offset + str.size)).drop (str.offset + stName))

/-- A symbol of type function (`st_info[3:0] = 2`) and binding global (`st_info[7:4] = 1`) (R264, R266). -/
def globalFunction (stInfo : Byte) : Bool := stInfo.extractLsb' 0 4 = 2#4 && stInfo.extractLsb' 4 4 = 1#4

/-- The address in the file of entry `k` of the symbol table `tab`. -/
def Section.entryOffset (tab : Section) (k : Nat) : Nat := tab.offset + 24 * k

/-- Look through `n` entries of the symbol table from index `k` on: the value of the first global function of that name,
found or not found apart from the value itself (R266, R273). -/
def Image.findSymbol (image : Image) (tab str : Section) (name : List Byte) :
    Nat → Nat → Except LoadError (Option Word)
  | 0, _ => .ok none
  | n + 1, k =>
    if image.length < tab.entryOffset k + 24 then .error .malformedImage
    else if globalFunction (image.byte (tab.entryOffset k + 4)) then
      match image.nameAt str (image.num (tab.entryOffset k) 4) with
      | none => .error .malformedImage
      | some found =>
        if found = name then .ok (some (BitVec.ofNat 64 (image.num (tab.entryOffset k + 8) 8)))
        else Image.findSymbol image tab str name n (k + 1)
    else Image.findSymbol image tab str name n (k + 1)

/-- The entry point: the lookup in the first section of type SHT_SYMTAB, whose string table is section `sh_link` (R265). -/
def Image.entryPoint (image : Image) (name : List Byte) : Except LoadError (Option Word) :=
  match image.sections.find? (fun h => h.type = 2) with
  | none => .ok none
  | some tab =>
    match image.sections[tab.link]? with
    | none => .error .malformedImage
    | some str => image.findSymbol tab str name (tab.size / 24) 0

/-! ### The load address and the whole loader (R269, R271, R276) -/

/-- `sh_addr - sh_offset` modulo 2^64 (R269, D26). -/
def Section.bias (h : Section) : Word := BitVec.ofNat 64 h.addr - BitVec.ofNat 64 h.offset

/-- `Load(image, name)`: acceptance, then the entry point, then the load address; the first failure is reported (R271). -/
def load (image : Image) (name : List Byte) : Except LoadError Process :=
  if image.acceptable then
    match image.entryPoint name with
    | .error e => .error e
    | .ok none => .error .entryNotFound
    | .ok (some entry) =>
      match image.sections.find? (fun h => h.type ≠ 0) with
      | none => .error .noLoadableSection
      | some first => .ok { loadAddress := first.bias, entryPoint := entry, imageBytes := image }
  else .error .malformedImage

end Sys2Proof.Machine
end

