-- ==== Sys2Proof/Machine/Start.lean ====
section
/-! DEFINITION. Reset: building a machine and starting it with a Process (spec/70_reset_and_hazards.md R380). -/

namespace Sys2Proof.Machine

/-- `construct(N)`: memory and the 18 slots zero, the token slot empty (R301, R380, D6, D20). The spec gives no phase
between construct and start and lets them be one step (D7); `waiting` stands in the field until `start` sets it
(DESIGN CHOICE, notes/assumptions/5.md). -/
def construct (cfg : Config) : State where
  cfg := cfg
  regs := Vector.replicate 18 0
  mem := []
  phase := .waiting
  token := false

/-- The start invariant `load_address + L <= N`, in unbounded arithmetic (R382). -/
abbrev Process.fits (p : Process) (cfg : Config) : Prop :=
  p.loadAddress.toNat + p.imageBytes.length ≤ cfg.memSize

/-- Memory at start: the image is copied first and the sentinel cell is written second (R381, D7). -/
def startMemory (p : Process) (cfg : Config) (m : Memory) : Memory :=
  (m.writeBytes p.loadAddress.toNat p.imageBytes).writeBytes (cfg.memSize - 8) (leBytes 8 (cfg.memSize - 8))

/-- `start(process)` (R303, R380, R382). A Process that does not fit is a MemoryFault with nothing copied and no register
set; the entry point is not checked. The boundary check runs once at the end (R384). -/
def start (p : Process) (s : State) : State :=
  if p.fits s.cfg then
    boundary (({ s with mem := startMemory p s.cfg s.mem }.setReg RSP s.sentinel).setReg IP p.entryPoint)
  else raise (.memoryFault p.loadAddress p.imageBytes.length) s

/-- `Reset(N, process)`: construct and start as one (R380). -/
def resetWith (cfg : Config) (p : Process) : State := start p (construct cfg)

end Sys2Proof.Machine
end

