-- ==== Sys2Proof/Machine/HostInterface.lean ====
section
/-! DEFINITION. The host's read-only queries and the core's notifications (spec/52_host_interface.md). -/

namespace Sys2Proof.Machine

/-- The answer to a query. -/
inductive Reply (α : Type) where
  | value (v : α)
  /-- A bad index, name or range: no result and no effect on the core (R305, R306, D19). -/
  | refused
  /-- An activation is running: the query is not enabled and completes after it (R241, D19). -/
  | notEnabled
deriving DecidableEq, Repr

/-- Queries are enabled in the phases `Waiting` and `Halted` (R241). -/
def quiescent (s : State) : Bool :=
  match s.phase with
  | .waiting => true
  | .halted _ => true
  | .executing _ => false

/-- `get_register(i)` by index (R305). -/
def getRegister (s : State) (i : Nat) : Reply Word :=
  if quiescent s then (if h : i < 18 then .value (s.getReg ⟨i, h⟩) else .refused) else .notEnabled

/-- The names of the slots: the source's, and the spec's own where it differs (R30). -/
def slotNames : List (String × Slot) :=
  [("accumulator", RAX), ("counter", RCX), ("data", RDX), ("base", RBX), ("stack-pointer", RSP),
   ("base-pointer", RBP), ("source-index", RSI), ("destination-index", RDI)] ++
  [("r8", R8), ("r9", R9), ("r10", R10), ("r11", R11), ("r12", R12), ("r13", R13), ("r14", R14), ("r15", R15)] ++
  [("instruction pointer", IP), ("flags", FLAGS)] ++
  [("RAX", RAX), ("RCX", RCX), ("RDX", RDX), ("RBX", RBX), ("RSP", RSP), ("RBP", RBP), ("RSI", RSI), ("RDI", RDI)] ++
  [("R8", R8), ("R9", R9), ("R10", R10), ("R11", R11), ("R12", R12), ("R13", R13), ("R14", R14), ("R15", R15)] ++
  [("IP", IP), ("FLAGS", FLAGS)]

/-- `get_register(name)` (R305); the spelling of the names is the spec's, the source fixes none (D9). -/
def getRegisterByName (s : State) (name : String) : Reply Word :=
  match slotNames.lookup name with
  | some i => getRegister s i.val
  | none => if quiescent s then .refused else .notEnabled

/-- `read_memory(from, count)`: the bytes of the range when it lies inside memory, else refused; no truncation and no
wrap (R306). -/
def readMemory (s : State) (first count : Word) : Reply (List Byte) :=
  if quiescent s then
    (if first.toNat + count.toNat ≤ s.cfg.memSize then .value (s.mem.readBytes first.toNat count.toNat) else .refused)
  else .notEnabled

/-- What the core tells the host (R307, R308). -/
inductive Notification where
  /-- Normal halt, with the exit code. -/
  | exit (code : Nat)
  /-- A fault, reported distinctly and with no numeric code. -/
  | fault (f : EngineFault)
deriving DecidableEq, Repr

/-- The notification a phase carries: given on entering it (R307, R308). -/
def Phase.notice : Phase → Option Notification
  | .waiting => none
  | .executing _ => none
  | .halted (.exited code) => some (.exit code)
  | .halted (.faulted f) => some (.fault f)

/-- The notification given as the machine goes from `s` to `t`: once, on entering a halted phase, which is never left. -/
def notification (s t : State) : Option Notification :=
  match s.phase with
  | .halted _ => none
  | .waiting => t.phase.notice
  | .executing _ => t.phase.notice

/-- The notification of a start that ends in a halted phase (R382, R384). -/
def startNotification (cfg : Config) (p : Process) : Option Notification := (resetWith cfg p).phase.notice

end Sys2Proof.Machine
end

