-- ==== Sys2Proof/Safety.lean ====
section
/-! DEFINITION. The invariant of the machine and what counts as a safe run, in the terms the statements use. -/

namespace Sys2Proof.Machine

/-- A recorded fault tells the truth about the state it left: a MemoryFault's access does not lie inside memory (R332); a
DecodeFault's address is the instruction pointer, an address inside memory that holds the recorded byte, which is one
of the illegal ones (R331, R340). -/
def EngineFault.truthful (f : EngineFault) (s : State) : Prop :=
  match f with
  | .memoryFault a n => ¬ s.inRange a n
  | .decodeFault a b => a = s.ip ∧ s.inRange a 1 ∧ s.mem.read a.toNat = b ∧ illegalByte b = true

/-- What holds of every state a run can reach, and is kept by every step. -/
structure State.Inv (s : State) : Prop where
  /-- The parameters are in the ranges of R8. -/
  config : s.cfg.wf
  /-- Memory is in its canonical form. -/
  canonical : s.mem.wf = true
  /-- Memory lists only addresses below `N`. -/
  bounded : s.mem.within s.cfg.memSize = true
  /-- The state is one the driver can observe: no activation is under way (R234). -/
  atBoundary : quiescent s = true
  /-- In `Waiting` the instruction pointer is not the sentinel (R43). -/
  notAtSentinel : s.phase = .waiting → s.ip ≠ s.sentinel
  /-- A normal exit stands at the sentinel with the accumulator's low bits as its code (R155, R156). -/
  exitIsNormal : ∀ code, s.phase = .halted (.exited code) → s.ip = s.sentinel ∧ code = s.exitCode
  /-- A fault's record is truthful. -/
  faultIsTruthful : ∀ f, s.phase = .halted (.faulted f) → f.truthful s

/-- The machine has not ended in a fault (R342). -/
def State.safe (s : State) : Prop := ∀ f, s.phase ≠ .halted (.faulted f)

/-- A schedule of the two agents' moves that runs from `s` and never ends in a fault. -/
def safeRun (ms : List Move) (s : State) : Prop := ∃ t, runMoves ms s = some t ∧ t.safe

/-- The engine's side of the machine: everything but the token slot, which the driver fills. -/
structure EngineView where
  cfg : Config
  regs : Vector Word 18
  mem : Memory
  phase : Phase
deriving DecidableEq, Repr

/-- Everything of a state but its token slot. -/
def State.engineView (s : State) : EngineView := { cfg := s.cfg, regs := s.regs, mem := s.mem, phase := s.phase }

/-- The frame the statements about instructions use: `t` has the parameters, the phase and the token of `s`, and every
slot that is not listed. -/
def keepsBut (written : List Slot) (s t : State) : Prop :=
  t.cfg = s.cfg ∧ t.phase = s.phase ∧ t.token = s.token ∧ ∀ i, i ∉ written → t.getReg i = s.getReg i

/-- Every byte of memory reads as before. -/
def keepsMemory (s t : State) : Prop := ∀ a, t.mem.read a = s.mem.read a

/-- `t` is `s` but for the phase. -/
def changesPhaseOnly (s t : State) : Prop := t.cfg = s.cfg ∧ t.regs = s.regs ∧ t.mem = s.mem ∧ t.token = s.token

/-- Byte `k` of a number, bits `8k+7:8k`. -/
def byteOf (v k : Nat) : Byte := BitVec.ofNat 8 (v / 256 ^ k)

/-- The 8 bytes from address `a` up are the little-endian bytes of the word `v`. -/
def holdsWord (m : Memory) (a : Nat) (v : Word) : Prop := ∀ k, k < 8 → m.read (a + k) = byteOf v.toNat k

/-- The bytes at `x[IP] .. x[IP]+p-1` all lie inside memory and are 0x48. -/
def prefixesAtIp (s : State) (p : Nat) : Prop :=
  ∀ k, k < p → s.ip.toNat + k < s.cfg.memSize ∧ s.mem.read (s.ip.toNat + k) = 0x48

/-- The state in which an activation that began in `s` decodes its opcode, after `p` prefixes: the token is spent, the
instruction pointer is `S + p` and the width is the one the prefixes give (R151). -/
def afterPrefixes (s : State) (p : Nat) : State := { (consume s).advance p with phase := .executing (widthAfter p) }

/-! ### The loader's lookups -/

/-- Section `i` is the first in table order whose type has the property. -/
def firstSection (image : Image) (holds : Nat → Bool) (i : Nat) : Prop :=
  i < image.shnum ∧ holds (image.header i).type = true ∧ ∀ j, j < i → holds (image.header j).type = false

/-- Entry `k` of the symbol table `tab` matches: it is a global function of the given name. -/
def entryMatches (image : Image) (tab str : Section) (name : List Byte) (k : Nat) : Prop :=
  globalFunction (image.byte (tab.entryOffset k + 4)) = true ∧
    image.nameAt str (image.num (tab.entryOffset k) 4) = some name

/-- Entry `k` is one the lookup passes over: it lies inside the image, and if it is a global function, its name can be read
and is another one (R266). -/
def entryPassedOver (image : Image) (tab str : Section) (name : List Byte) (k : Nat) : Prop :=
  tab.entryOffset k + 24 ≤ image.length ∧
    (globalFunction (image.byte (tab.entryOffset k + 4)) = true →
      ∃ other, image.nameAt str (image.num (tab.entryOffset k) 4) = some other ∧ other ≠ name)

/-- No zero byte ends the name `stName` bytes into the string table: there is none from its start on that lies both inside
the table and inside the image (R264). -/
def unterminated (image : Image) (str : Section) (stName : Nat) : Prop :=
  ∀ a, str.offset + stName ≤ a → a < str.offset + str.size → image[a]? ≠ some 0

/-! ### Schedules -/

/-- How many moves of a schedule are the given one. -/
def moveCount (m : Move) (ms : List Move) : Nat := ms.countP (· = m)

end Sys2Proof.Machine
end

