-- ==== Sys2Proof/Certificates/Slice0/Obligations.lean ====
section
/-! DEFINITION. The statements for the provers. Each docstring names the rule of spec/ it formalises; where a clause rests
on a choice the spec marks as its own (92_eei_decisions.md), the docstring names that decision. -/

open Sys2Proof Sys2Proof.Machine

/-! ### Registers and memory -/

/-- R31. A write of a slot replaces all 64 bits of it and nothing else, for all 18 slots, and an index outside `0..17` is
refused at the host interface. That refusal, on a quiescent machine, is decision D19 (notes/assumptions/15.md). -/
def Obligations.RegisterSetThenGetReturnsTheValue : Prop :=
  ∀ (s : State) (i : Slot) (v : Word),
    (s.setReg i v).getReg i = v ∧
    (∀ j, j ≠ i → (s.setReg i v).getReg j = s.getReg j) ∧
    (s.setReg i v).cfg = s.cfg ∧ (s.setReg i v).mem = s.mem ∧
    (s.setReg i v).phase = s.phase ∧ (s.setReg i v).token = s.token ∧
    (∀ n, 18 ≤ n → quiescent s = true → getRegister s n = .refused)

/-- R74. `MemRead(a, n)` is the little-endian sum of the `n` bytes from `a` up, or a MemoryFault when `a + n > N` (the fault
is decision D2, the unbounded sum D24). -/
def Obligations.MemReadIsTheLittleEndianSumOrFaults : Prop :=
  ∀ (s : State) (a : Word) (n : Nat),
    (s.cfg.memSize < a.toNat + n → memRead s a n = .error (.memoryFault a n)) ∧
    (a.toNat + n ≤ s.cfg.memSize →
      memRead s a n = .ok (∑ k ∈ Finset.range n, 2 ^ (8 * k) * (s.mem.read (a.toNat + k)).toNat))

/-- R75. `MemWrite(a, n, v)` puts byte `k` of `v` at `a + k` and changes no other byte and nothing else, or is a
MemoryFault when `a + n > N` (decisions D2 and D24). The premise is the canonical form, which every
reachable state has (StepKeepsTheInvariant). -/
def Obligations.MemWriteStoresLittleEndianOrFaults : Prop :=
  ∀ (s : State) (a : Word) (n v : Nat), s.mem.wf = true →
    (s.cfg.memSize < a.toNat + n → memWrite s a n v = .error (.memoryFault a n)) ∧
    (a.toNat + n ≤ s.cfg.memSize →
      ∃ t, memWrite s a n v = .ok t ∧ t.cfg = s.cfg ∧ t.regs = s.regs ∧ t.phase = s.phase ∧ t.token = s.token ∧
        (∀ k, k < n → t.mem.read (a.toNat + k) = byteOf v k) ∧
        (∀ b, b < a.toNat ∨ a.toNat + n ≤ b → t.mem.read b = s.mem.read b))

/-- The model's own form of memory (notes/assumptions/6.md): two memories in canonical form that read alike at every
address are the same data. -/
def Obligations.CanonicalMemoriesThatReadAlikeAreEqual : Prop :=
  ∀ m m' : Memory, m.wf = true → m'.wf = true → (∀ a, m.read a = m'.read a) → m = m'

/-- R76, R77, R89 (R77's last sentence is the spec's inference). A fetch sees the bytes a store has just written, each at
its own address. -/
def Obligations.AStoreIsSeenByTheNextFetch : Prop :=
  ∀ (s t : State) (a j : Word) (v k : Nat), s.mem.wf = true → memWrite s a 8 v = .ok t → k < 8 →
    j.toNat = a.toNat + k → fetchByte t j = .ok (byteOf v k)

/-! ### The instructions: completion, result and frame -/

/-- R180, for every register and in every state whose stack pointer is in `8..N` (the bounds are decision D2, all 64 bits
at either width D10): PUSH completes, stores the register's
value (for PUSH RSP the already decremented stack pointer, decision D11) at the decremented stack pointer, and changes
nothing but that cell, the stack pointer and the instruction pointer. -/
def Obligations.PushStoresTheRegisterBelowTheStackPointer : Prop :=
  ∀ (r : BitVec 3) (s : State), s.mem.wf = true → 8 ≤ (s.getReg RSP).toNat → (s.getReg RSP).toNat ≤ s.cfg.memSize →
    ∃ t, exec (.push r) s = .next t ∧
      t.getReg RSP = s.getReg RSP - 8 ∧ t.ip = s.ip + 1 ∧
      holdsWord t.mem (pushAddress s).toNat (if slotOf r = RSP then s.getReg RSP - 8 else s.getReg (slotOf r)) ∧
      (pushAddress s).toNat = (s.getReg RSP).toNat - 8 ∧
      (∀ a, a < (pushAddress s).toNat ∨ (pushAddress s).toNat + 8 ≤ a → t.mem.read a = s.mem.read a) ∧
      keepsBut [RSP, IP] s t

/-- R181, for every register and every in-range stack pointer (decisions D2 and D10): POP completes with the 8 bytes at the stack pointer in the
register and the stack pointer 8 higher; POP RSP ends at the popped value plus 8 (decision D11); memory and every other
slot are unchanged. -/
def Obligations.PopLoadsTheRegisterAndRaisesTheStackPointer : Prop :=
  ∀ (r : BitVec 3) (s : State), (s.getReg RSP).toNat + 8 ≤ s.cfg.memSize →
    ∃ t v, exec (.pop r) s = .next t ∧ holdsWord s.mem (s.getReg RSP).toNat v ∧
      (slotOf r ≠ RSP → t.getReg (slotOf r) = v ∧ t.getReg RSP = s.getReg RSP + 8) ∧
      (slotOf r = RSP → t.getReg RSP = v + 8) ∧
      t.ip = s.ip + 1 ∧ keepsMemory s t ∧ keepsBut [slotOf r, RSP, IP] s t

/-- R220: with an in-range stack pointer (decisions D2 and D10) RET completes, loads the 8 bytes at the stack pointer into the instruction
pointer with no advance and no check of the target, and raises the stack pointer by 8; nothing else changes. -/
def Obligations.RetLoadsTheInstructionPointer : Prop :=
  ∀ s : State, (s.getReg RSP).toNat + 8 ≤ s.cfg.memSize →
    ∃ t, exec .ret s = .next t ∧ holdsWord s.mem (s.getReg RSP).toNat t.ip ∧
      t.getReg RSP = s.getReg RSP + 8 ∧ keepsMemory s t ∧ keepsBut [RSP, IP] s t

/-- R200, in every state and for all four values of ModRM bits 7:6: all 64 bits of the source are copied (decisions D10 and
D12) and nothing else changes but the instruction pointer; where source and destination are one register it keeps its value. -/
def Obligations.MovRegisterCopiesAllBits : Prop :=
  ∀ (m : BitVec 2) (src dst : BitVec 3) (s : State),
    ∃ t, exec (.movRmR m src dst) s = .next t ∧ t.getReg (slotOf dst) = s.getReg (slotOf src) ∧ t.ip = s.ip + 2 ∧
      keepsMemory s t ∧ keepsBut [slotOf dst, IP] s t

/-- R201, in every state: the destination becomes the 4-byte immediate zero-extended (decision D3), and nothing else changes
but the instruction pointer, which advances by 5. -/
def Obligations.MovImm32ZeroExtends : Prop :=
  ∀ (r : BitVec 3) (imm : BitVec 32) (s : State),
    ∃ t, exec (.movRImm32 r imm) s = .next t ∧ (t.getReg (slotOf r)).toNat = imm.toNat ∧ t.ip = s.ip + 5 ∧
      keepsMemory s t ∧ keepsBut [slotOf r, IP] s t

/-- R202, in every state: the destination becomes the 8-byte immediate, and nothing else changes but the instruction
pointer, which advances by 9 from the opcode byte. -/
def Obligations.MovImm64LoadsTheImmediate : Prop :=
  ∀ (r : BitVec 3) (imm : BitVec 64) (s : State),
    ∃ t, exec (.movRImm64 r imm) s = .next t ∧ t.getReg (slotOf r) = imm ∧ t.ip = s.ip + 9 ∧
      keepsMemory s t ∧ keepsBut [slotOf r, IP] s t

/-- R154, in every state: a prefix moves the instruction pointer by one and makes the width 64, and nothing else changes. -/
def Obligations.PrefixSetsTheWidthAndAdvances : Prop :=
  ∀ s : State, ∃ t, exec .prefixW64 s = .next t ∧ t.ip = s.ip + 1 ∧ t.phase = .executing .w64 ∧ t.width = .w64 ∧
    t.cfg = s.cfg ∧ t.token = s.token ∧ (∀ i, i ≠ IP → t.getReg i = s.getReg i) ∧ keepsMemory s t

/-- R157, in every state: an illegal byte takes the DecodeFault with its own address and value, and no register, no byte
of memory and nothing else changes (decision D13). -/
def Obligations.IllegalByteTakesTheDecodeFault : Prop :=
  ∀ (b : Byte) (s : State), ∃ t, exec (.illegal b) s = .next t ∧ t.phase = .halted (.faulted (.decodeFault s.ip b)) ∧
    t.cfg = s.cfg ∧ t.regs = s.regs ∧ t.token = s.token ∧ keepsMemory s t

/-- R13. No instruction reads or writes the FLAGS slot, nor the slots R8 to R15: each completes in every state, leaves such
a slot as it is, and with another value in the slot does the same everywhere else. -/
def Obligations.NoInstructionReadsOrWritesFlagsOrHighRegisters : Prop :=
  ∀ (i : Instr) (s : State) (j : Slot) (v : Word), (j = FLAGS ∨ (8 ≤ j.val ∧ j.val ≤ 15)) →
    ∃ t, exec i s = .next t ∧ t.getReg j = s.getReg j ∧ exec i (s.setReg j v) = .next (t.setReg j v)

/-- R153. Where an instruction completes without a fault the instruction pointer stands after its last byte, and after RET
it is the popped value with nothing added. -/
def Obligations.EachInstructionAdvancesPastItsLastByte : Prop :=
  ∀ (i : Instr) (s t : State), exec i s = .next t → t.safe →
    match i with
    | .prefixW64 => t.ip = s.ip + 1
    | .push _ => t.ip = s.ip + 1
    | .pop _ => t.ip = s.ip + 1
    | .movRmR _ _ _ => t.ip = s.ip + 2
    | .movRImm32 _ _ => t.ip = s.ip + 5
    | .movRImm64 _ _ => t.ip = s.ip + 9
    | .ret => holdsWord s.mem (s.getReg RSP).toNat t.ip
    | .illegal _ => False

/-- R182: PUSH r then POP r restores the stack pointer and leaves r unchanged, r = RSP included (decision D11); PUSH r1 then
POP r2 moves the pushed value to r2 with no net movement of the stack pointer, and for r2 = RSP it ends at that value
plus 8. The pushed value stays in memory. -/
def Obligations.PushThenPopMovesTheValue : Prop :=
  ∀ (r1 r2 : BitVec 3) (s : State), s.mem.wf = true → 8 ≤ (s.getReg RSP).toNat →
    (s.getReg RSP).toNat ≤ s.cfg.memSize →
    ∃ t u, exec (.push r1) s = .next t ∧ exec (.pop r2) t = .next u ∧
      holdsWord u.mem ((s.getReg RSP).toNat - 8) (pushValue r1 s) ∧
      (r1 = r2 → u.getReg RSP = s.getReg RSP ∧ u.getReg (slotOf r2) = s.getReg (slotOf r2)) ∧
      (slotOf r2 ≠ RSP → u.getReg (slotOf r2) = pushValue r1 s ∧ u.getReg RSP = s.getReg RSP) ∧
      (slotOf r2 = RSP → u.getReg RSP = pushValue r1 s + 8)

/-! ### Faults -/

/-- R338. Taking a fault sets the phase, gives the fault notification, and does nothing else (decision D13; the recorded
values are D23). -/
def Obligations.FaultEntrySetsThePhaseOnly : Prop :=
  ∀ (f : EngineFault) (s : State),
    (raise f s).phase = .halted (.faulted f) ∧ (raise f s).cfg = s.cfg ∧ (raise f s).regs = s.regs ∧
    (raise f s).mem = s.mem ∧ (raise f s).token = s.token ∧
    ((∀ h, s.phase ≠ .halted h) → notification s (raise f s) = some (.fault f))

/-- R180, R181, R220 with decisions D2, D24 and D13: outside memory PUSH, POP and RET take the MemoryFault of their
access and change nothing else. -/
def Obligations.StackAccessOutsideMemoryFaults : Prop :=
  ∀ s : State, s.cfg.wf →
    (∀ r, (s.getReg RSP).toNat < 8 ∨ s.cfg.memSize < (s.getReg RSP).toNat →
      exec (.push r) s = .next (raise (.memoryFault (s.getReg RSP - 8) 8) s)) ∧
    (s.cfg.memSize < (s.getReg RSP).toNat + 8 →
      (∀ r, exec (.pop r) s = .next (raise (.memoryFault (s.getReg RSP) 8) s)) ∧
      exec .ret s = .next (raise (.memoryFault (s.getReg RSP) 8) s))

/-- R335 (an inference of the spec) and R332, with decisions D2 and D13: the one fault `exec` of each instruction can take, and
the state it leaves. It is a claim about `exec` after the operand fetch: the MemoryFault that R335 and R332 list for the
moves is that fetch's in this model (notes/assumptions/21.md) and is stated by FetchOutsideMemoryFaults, so `exec` of a
move takes none. -/
def Obligations.EachInstructionTakesOnlyItsOwnFault : Prop :=
  ∀ (i : Instr) (s t : State) (w : Width) (f : EngineFault), s.phase = .executing w → exec i s = .next t →
    t.phase = .halted (.faulted f) →
    t = raise f s ∧
    match i with
    | .push _ => f = .memoryFault (s.getReg RSP - 8) 8 ∧ s.cfg.memSize < (s.getReg RSP - 8).toNat + 8
    | .pop _ => f = .memoryFault (s.getReg RSP) 8 ∧ s.cfg.memSize < (s.getReg RSP).toNat + 8
    | .ret => f = .memoryFault (s.getReg RSP) 8 ∧ s.cfg.memSize < (s.getReg RSP).toNat + 8
    | .illegal b => f = .decodeFault s.ip b
    | .prefixW64 => False
    | .movRmR _ _ _ => False
    | .movRImm32 _ _ => False
    | .movRImm64 _ _ => False

/-! ### Encoding -/

/-- R118. What each of the 256 values of a byte in opcode position decodes to, at either width, with any operand bytes. -/
def Obligations.OpcodeMapIsTheSpecs : Prop :=
  (∀ (b : Byte) (w : Width) (v : Nat),
    (b.toNat ≤ 0x47 ∨ (0x49 ≤ b.toNat ∧ b.toNat ≤ 0x4F) ∨ (0x60 ≤ b.toNat ∧ b.toNat ≤ 0x88) ∨
      (0x8A ≤ b.toNat ∧ b.toNat ≤ 0xB7) ∨ (0xC0 ≤ b.toNat ∧ b.toNat ≤ 0xC2) ∨ 0xC4 ≤ b.toNat →
      decodeOpcode w b v = .illegal b) ∧
    (b.toNat = 0x48 → decodeOpcode w b v = .prefixW64) ∧
    (0x50 ≤ b.toNat ∧ b.toNat ≤ 0x57 → decodeOpcode w b v = .push (BitVec.ofNat 3 (b.toNat - 0x50))) ∧
    (0x58 ≤ b.toNat ∧ b.toNat ≤ 0x5F → decodeOpcode w b v = .pop (BitVec.ofNat 3 (b.toNat - 0x58))) ∧
    (b.toNat = 0x89 → decodeOpcode w b v =
      .movRmR (BitVec.ofNat 2 (v / 64)) (BitVec.ofNat 3 (v / 8)) (BitVec.ofNat 3 v)) ∧
    (0xB8 ≤ b.toNat ∧ b.toNat ≤ 0xBF → decodeOpcode w b v =
      match w with
      | .w32 => .movRImm32 (BitVec.ofNat 3 (b.toNat - 0xB8)) (BitVec.ofNat 32 v)
      | .w64 => .movRImm64 (BitVec.ofNat 3 (b.toNat - 0xB8)) (BitVec.ofNat 64 v)) ∧
    (b.toNat = 0xC3 → decodeOpcode w b v = .ret)) ∧
  (List.range 256).countP (fun n => illegalByte (BitVec.ofNat 8 n)) = 229

/-- R111, R112: whatever well-formed instruction is encoded, decoding gives it back with every operand bit and the bytes
after it; encoded after any number of prefixes it comes back with their number. -/
def Obligations.DecodingAnEncodingGivesItBack : Prop :=
  (∀ (w : Width) (i : Instr) (rest : List Byte), i.wf w = true → decode w (encode i ++ rest) = .ok (i, rest)) ∧
  (∀ (p : Nat) (i : Instr) (rest : List Byte), i.wf (widthAfter p) = true → i ≠ .prefixW64 →
    decodeWhole (encodeWhole p i ++ rest) = .ok (p, i, rest))

/-- R111, R118, R120: each string of bytes has one meaning. What decoding reads is well-formed at the width its prefixes
give, is no prefix, and re-encodes to the very bytes it was read from. -/
def Obligations.DecodedBytesAreTheEncoding : Prop :=
  ∀ (bytes rest : List Byte) (p : Nat) (i : Instr), decodeWhole bytes = .ok (p, i, rest) →
    i.wf (widthAfter p) = true ∧ i ≠ .prefixW64 ∧ bytes = encodeWhole p i ++ rest

/-- R124 (decision D22): the bytes the notation's table gives a line, followed by any bytes, decode to the line's prefixes
and instruction and leave those bytes. -/
def Obligations.AssembledLinesDecode : Prop :=
  ∀ (line : AsmLine) (rest : List Byte),
    decodeWhole (line.bytes ++ rest) = .ok (line.meaning.1, line.meaning.2, rest)

/-- R110. The parts of an instruction in address order, and the only lengths there are. -/
def Obligations.InstructionIsPrefixesOpcodeOperands : Prop :=
  ∀ (bytes rest : List Byte) (p : Nat) (i : Instr), decodeWhole bytes = .ok (p, i, rest) → (∀ b, i ≠ .illegal b) →
    ∃ (b : Byte) (operands : List Byte), b ≠ 0x48 ∧
      bytes = List.replicate p 0x48 ++ b :: (operands ++ rest) ∧
      match i with
      | .prefixW64 => False
      | .push _ => operands.length = 0
      | .pop _ => operands.length = 0
      | .ret => operands.length = 0
      | .movRmR _ _ _ => operands.length = 1
      | .movRImm32 _ _ => p = 0 ∧ operands.length = 4
      | .movRImm64 _ _ => 1 ≤ p ∧ operands.length = 8
      | .illegal _ => False

/-- Words written out from the encodings of R111 decode to the instructions they stand for (a sanity check). -/
def Obligations.WrittenOutWordsDecode : Prop :=
  decodeWhole [0b01010111#8] = .ok (0, .push 7, []) ∧
  decodeWhole [0b01011100#8] = .ok (0, .pop 4, []) ∧
  decodeWhole [0b01001000#8, 0b10001001#8, 0b11100101#8] = .ok (1, .movRmR 3 4 5, []) ∧
  decodeWhole [0b10111001#8, 0x78, 0x56, 0x34, 0x12] = .ok (0, .movRImm32 1 0x12345678, []) ∧
  decodeWhole [0b01001000#8, 0b10111010#8, 1, 0, 0, 0, 0, 0, 0, 0x80] = .ok (1, .movRImm64 2 0x8000000000000001, []) ∧
  decodeWhole [0b11000011#8] = .ok (0, .ret, []) ∧
  decodeWhole [0b00001111#8] = .ok (0, .illegal 0x0F, [])

/-! ### The step: one activation -/

/-- R150, R158: with a token, when the bytes at the instruction pointer decode to an instruction at width 32, a step consumes
the token, runs `exec` of that instruction and ends the activation with `finish`; when they decode to a prefix, the
step is the rest of the activation from the state the prefix leaves. Where the boundary check stands is decision D4. -/
def Obligations.StepRunsTheDecodedInstruction : Prop :=
  ∀ (s t : State) (i : Instr), s.cfg.wf → s.phase = .waiting → s.token = true →
    s.ip.toNat + i.length ≤ s.cfg.memSize → decode .w32 (s.mem.readBytes s.ip.toNat i.length) = .ok (i, []) →
    exec i (consume s) = .next t →
    (i ≠ .prefixW64 → step s = .next (finish t)) ∧ (i = .prefixW64 → step s = activate t)

/-- R110, R151, R158: one token runs one whole instruction. When the bytes at the instruction pointer decode to `p` prefixes
and an instruction, a step runs `exec` of that instruction in the state the scan leaves, at `x[IP] + p` and the width
the prefixes give, and ends the activation. The check is decision D4, the unbounded scan D30. -/
def Obligations.OneTokenRunsOneWholeInstruction : Prop :=
  ∀ (s t : State) (p n : Nat) (i : Instr), s.cfg.wf → s.phase = .waiting → s.token = true →
    s.ip.toNat + n ≤ s.cfg.memSize → decodeWhole (s.mem.readBytes s.ip.toNat n) = .ok (p, i, []) →
    exec i (afterPrefixes s p) = .next t → step s = .next (finish t)

/-- R157 and R308. An illegal byte in opcode position, after any number of prefixes (decision D30, notes/assumptions/25.md),
ends the activation in the DecodeFault with its address and value: the token is spent, the instruction pointer stands at
the byte, no other register and no byte of memory changes (decision D13, notes/assumptions/13.md), and what is notified is
the fault (R308), with no exit code. -/
def Obligations.IllegalOpcodeEndsInTheDecodeFault : Prop :=
  ∀ (s : State) (p : Nat) (b : Byte) (a : Word), s.cfg.wf → s.phase = .waiting → s.token = true →
    prefixesAtIp s p → a.toNat = s.ip.toNat + p → a.toNat < s.cfg.memSize → s.mem.read a.toNat = b →
    illegalByte b = true →
    ∃ t, step s = .next t ∧ t.phase = .halted (.faulted (.decodeFault a b)) ∧ t.ip = a ∧ t.token = false ∧
      t.cfg = s.cfg ∧ (∀ i, i ≠ IP → t.getReg i = s.getReg i) ∧ keepsMemory s t ∧
      notification s t = some (.fault (.decodeFault a b))

/-- R151, R332 with decisions D2, D24, D13, D28 and D30: a fetch past the end of memory is the MemoryFault of that fetch,
before anything else is done. The byte in opcode position comes first, after any prefixes, and then the operand bytes
of MOV. An opcode with no operand bytes has no such fault. -/
def Obligations.FetchOutsideMemoryFaults : Prop :=
  ∀ (s : State) (p : Nat) (a : Word), s.cfg.wf → s.phase = .waiting → s.token = true → prefixesAtIp s p →
    a.toNat = s.ip.toNat + p →
    (s.cfg.memSize ≤ a.toNat →
      ∃ t, step s = .next t ∧ t = raise (.memoryFault a 1) ({ s with token := false }.setReg IP a)) ∧
    (∀ n, a.toNat < s.cfg.memSize → n = operandBytes (widthAfter p) (s.mem.read a.toNat) →
      s.cfg.memSize < a.toNat + 1 + n →
      0 < n ∧ step s = .next (raise (.memoryFault (a + 1) n) ({ s with token := false }.setReg IP a)))

/-- R339, R340 (decision D13; any number of prefixes, D30): faults are precise. A step that ends in a fault has moved the instruction pointer over the
prefixes it scanned and has spent the token; every other register and every byte of memory is as it was. -/
def Obligations.AFaultLeavesOnlyThePrefixesConsumed : Prop :=
  ∀ (s t : State) (f : EngineFault), s.cfg.wf → s.phase = .waiting → s.token = true → step s = .next t →
    t.phase = .halted (.faulted f) →
    ∃ p, prefixesAtIp s p ∧ t.ip.toNat = s.ip.toNat + p ∧ (∀ i, i ≠ IP → t.getReg i = s.getReg i) ∧
      t.mem = s.mem ∧ t.token = false ∧ t.cfg = s.cfg

/-- R155, R156, R307 (the placement of the check is decision D4, the width of the code D5). The boundary check, and the end of
an activation, set the phase only; the end of an activation that took no fault is a normal exit exactly when the
instruction pointer equals the sentinel `N - 8`, with the low bits of the accumulator as its code, and else `Waiting`; a
halted state is left as it is. So ends every step with a token that takes no fault, and the exit is notified. -/
def Obligations.AnActivationEndsWithTheBoundaryCheck : Prop :=
  (∀ s, changesPhaseOnly s (boundary s) ∧ changesPhaseOnly s (finish s)) ∧
  (∀ s h, s.phase = .halted h → finish s = s) ∧
  (∀ s w, s.phase = .executing w →
    (finish s).phase =
      if s.ip = BitVec.ofNat 64 (s.cfg.memSize - 8) then
        .halted (.exited ((s.getReg RAX).toNat % 2 ^ s.cfg.exitBits))
      else .waiting) ∧
  (∀ s t : State, s.phase = .waiting → s.token = true → step s = .next t → t.safe →
    t.token = false ∧
    (t.ip = BitVec.ofNat 64 (s.cfg.memSize - 8) →
      t.phase = .halted (.exited ((t.getReg RAX).toNat % 2 ^ s.cfg.exitBits)) ∧
      notification s t = some (.exit ((t.getReg RAX).toNat % 2 ^ s.cfg.exitBits))) ∧
    (t.ip ≠ BitVec.ofNat 64 (s.cfg.memSize - 8) → t.phase = .waiting ∧ notification s t = none))

/-- R232. The engine has a move exactly in `Waiting` with a token in the slot; the move empties the slot and is one
activation. In any other state it has none. -/
def Obligations.TheEngineConsumesATokenOnlyWhenWaiting : Prop :=
  ∀ s : State,
    (s.phase = .waiting → s.token = true →
      ∃ t, applyMove s .engine = some t ∧ t.token = false ∧ activate (consume s) = .next t) ∧
    (s.phase = .waiting → s.token = false → applyMove s .engine = none) ∧
    (s.phase ≠ .waiting → applyMove s .engine = none)

/-- R238, R349: every step answers a next state. In `Waiting` without a token, and once halted, it is the same state (the
form of having no move is the model's, notes/assumptions/3.md); only a step in `Waiting` changes the token slot. -/
def Obligations.EveryStepAnswersAndWaitingHoldsAllState : Prop :=
  ∀ s : State, ∃ t, step s = .next t ∧
    (s.phase = .waiting → s.token = false → t = s) ∧
    (∀ h, s.phase = .halted h → t = s) ∧
    (s.phase ≠ .waiting → t.token = s.token)

/-- R235, R236, R237 and R155: a step with a token is one whole activation, so it never ends inside one (R234). -/
def Obligations.AStepEndsAtAnInstructionBoundary : Prop :=
  ∀ s t : State, quiescent s = true → step s = .next t → quiescent t = true

/-! ### The invariant -/

/-- The invariant of Safety.lean is kept by every step, from every state that has it. It says among other things that the
parameters stay in range (R8), memory stays canonical and below `N`, `Waiting` is never at the sentinel (R43), an exit
stands at the sentinel with the accumulator's low bits (R155, R156), and a fault's record is true of the state (R331,
R332, R340). It holds under decisions D2, D4, D5 and D13. -/
def Obligations.StepKeepsTheInvariant : Prop :=
  ∀ s t : State, s.Inv → step s = .next t → t.Inv

/-- The invariant holds at the model's reset state (its parameters and entry point are the model's choice,
notes/assumptions/1.md and 2.md). -/
def Obligations.ResetMeetsTheInvariant : Prop := State.reset.Inv

/-- Every start establishes the invariant, whatever the parameters in range and the Process, and a grant keeps it (R231,
R380, R382). -/
def Obligations.StartAndGrantMeetTheInvariant : Prop :=
  (∀ (cfg : Config) (p : Process), cfg.wf → (resetWith cfg p).Inv) ∧
  (∀ s t : State, s.Inv → grantStep s = .granted t → t.Inv)

/-! ### Reset -/

/-- R49, R380, R381: what a successful reset leaves, for all parameters and every Process that fits. The zeros of the other
registers are decision D6, the sentinel cell winning an overlap D7, the empty token slot D20, the check at the end D4. -/
def Obligations.ResetLeavesTheImageTheSentinelAndTheStackPointer : Prop :=
  ∀ (cfg : Config) (p : Process), cfg.wf → p.loadAddress.toNat + p.imageBytes.length ≤ cfg.memSize →
    ∃ t, resetWith cfg p = t ∧ t.cfg = cfg ∧ t.token = false ∧
      t.getReg RSP = BitVec.ofNat 64 (cfg.memSize - 8) ∧ t.ip = p.entryPoint ∧
      (∀ i, i ≠ RSP → i ≠ IP → t.getReg i = 0) ∧
      (∀ k, k < 8 → t.mem.read (cfg.memSize - 8 + k) = byteOf (cfg.memSize - 8) k) ∧
      (∀ k (h : k < p.imageBytes.length), p.loadAddress.toNat + k < cfg.memSize - 8 →
        t.mem.read (p.loadAddress.toNat + k) = p.imageBytes[k]) ∧
      (∀ a, a < cfg.memSize - 8 → (a < p.loadAddress.toNat ∨ p.loadAddress.toNat + p.imageBytes.length ≤ a) →
        t.mem.read a = 0) ∧
      t.phase = if p.entryPoint = BitVec.ofNat 64 (cfg.memSize - 8) then .halted (.exited 0) else .waiting

/-- R382 (decision D8): a Process that does not fit ends the start in a MemoryFault with nothing copied and no register set,
and the fault is notified. -/
def Obligations.AProcessThatDoesNotFitFaultsAtStart : Prop :=
  ∀ (cfg : Config) (p : Process), cfg.memSize < p.loadAddress.toNat + p.imageBytes.length →
    (resetWith cfg p).phase = .halted (.faulted (.memoryFault p.loadAddress p.imageBytes.length)) ∧
    (∀ i, (resetWith cfg p).getReg i = 0) ∧ (resetWith cfg p).mem = [] ∧ (resetWith cfg p).token = false ∧
    startNotification cfg p = some (.fault (.memoryFault p.loadAddress p.imageBytes.length))

/-- The model's reset state is what the reset procedure of R380 leaves for its parameters and an empty image at 0 with entry
point 0 (the model's choice, notes/assumptions/1.md and 2.md). -/
def Obligations.ResetIsTheResetProcedure : Prop :=
  State.reset = resetWith Config.reset { loadAddress := 0, entryPoint := 0, imageBytes := [] }

/-! ### The two agents -/

/-- R231. A grant is enabled exactly when the slot is empty, whatever the phase; it fills the slot and does nothing else. -/
def Obligations.GrantFillsAnEmptySlotOnly : Prop :=
  ∀ s : State,
    (s.token = false → ∃ t, grantStep s = .granted t ∧ t.token = true ∧ t.engineView = s.engineView) ∧
    (s.token = true → grantStep s = .blocked)

/-- R341. There is no return from a fault, nor from an exit: no schedule of the two agents' moves changes a register, a byte
of memory, the parameters or the phase of a halted machine, and the engine makes no move in it. -/
def Obligations.ThereIsNoReturnFromAHalt : Prop :=
  ∀ (ms : List Move) (s t : State) (h : Halt), s.phase = .halted h → runMoves ms s = some t →
    t.engineView = s.engineView ∧ moveCount .engine ms = 0

/-- R239 (decision D20): a halted machine takes at most one more token, which then stays in the slot. -/
def Obligations.AHaltedMachineKeepsItsToken : Prop :=
  ∀ (ms : List Move) (s t : State) (h : Halt), s.phase = .halted h → runMoves ms s = some t →
    moveCount .grant ms ≤ 1 ∧ (s.token = true → t.token = true) ∧ (moveCount .grant ms = 1 → s.token = false ∧ t.token = true)

/-- R342, R341: a run that ends without a fault has met no fault on the way. -/
def Obligations.ASafeRunIsSafeAllTheWay : Prop :=
  ∀ (ms ms' : List Move) (s : State), safeRun (ms ++ ms') s → safeRun ms s

/-- R236, R237: under the single-step driver `k` commands are a schedule of the two agents with as many activations as
grants and at most `k` of each, and exactly `k` as long as the machine has not halted. That a command grants nothing in a
halted machine, so that the two numbers stay equal past a halt, is the model's choice (notes/assumptions/26.md): a driver
that goes on granting leaves one token in the slot (R239, AHaltedMachineKeepsItsToken). -/
def Obligations.EachStepCommandIsOneTokenAndOneActivation : Prop :=
  ∀ (k : Nat) (s : State), s.token = false → quiescent s = true →
    ∃ ms, runMoves ms s = some (runCommands k s) ∧ moveCount .grant ms = moveCount .engine ms ∧
      moveCount .engine ms ≤ k ∧ ((runCommands k s).phase = .waiting → moveCount .engine ms = k)

/-- R233: the `k`-th token is the `k`-th activation. Along every schedule the grants, with the token already in the slot, are
the activations and the token still in it. -/
def Obligations.GrantsAndActivationsAlternate : Prop :=
  ∀ (ms : List Move) (s t : State), runMoves ms s = some t →
    moveCount .grant ms + s.token.toNat = moveCount .engine ms + t.token.toNat

/-- R236, R160 (an inference of the spec): what a run does depends on how many activations it made, never on when the driver
granted their tokens. -/
def Obligations.TheResultDoesNotDependOnTheDriver : Prop :=
  ∀ (ms ms' : List Move) (s s' t t' : State), s.engineView = s'.engineView → runMoves ms s = some t →
    runMoves ms' s' = some t' → moveCount .engine ms = moveCount .engine ms' → t.engineView = t'.engineView

/-- R305, R306, R241 (decision D19): a query is answered in `Waiting` and `Halted` only, an index outside `0..17` or a range past
the end of memory is refused, and otherwise the answer is the register or the bytes of the range. -/
def Obligations.QueriesAnswerWhenQuiescentAndInRange : Prop :=
  ∀ s : State,
    (∀ w, s.phase = .executing w → (∀ i, getRegister s i = .notEnabled) ∧ ∀ a n, readMemory s a n = .notEnabled) ∧
    (quiescent s = true →
      (∀ i (h : i < 18), getRegister s i = .value (s.getReg ⟨i, h⟩)) ∧ (∀ i, 18 ≤ i → getRegister s i = .refused) ∧
      (∀ a n : Word, s.cfg.memSize < a.toNat + n.toNat → readMemory s a n = .refused) ∧
      (∀ a n : Word, a.toNat + n.toNat ≤ s.cfg.memSize →
        readMemory s a n = .value ((List.range n.toNat).map fun k => s.mem.read (a.toNat + k))))

/-! ### The ELF loader -/

/-- R265 to R273: whatever loads, the image is kept whole, the entry point is the value of the first matching entry of the
first symbol table, and the load address is the bias of the first section of non-null type, modulo 2^64. Which table,
which match and the modulus are decisions D16 and D26; the layouts are the spec's general knowledge. -/
def Obligations.LoadedProcessComesFromTheFirstMatch : Prop :=
  ∀ (image : Image) (name : List Byte) (p : Process), load image name = .ok p →
    image.acceptable = true ∧ p.imageBytes = image ∧
    (∃ i, firstSection image (· = 2) i ∧ (image.header i).link < image.shnum ∧
      ∃ k, k < (image.header i).size / 24 ∧ (image.header i).entryOffset k + 24 ≤ image.length ∧
        entryMatches image (image.header i) (image.header (image.header i).link) name k ∧
        (∀ j, j < k → ¬ entryMatches image (image.header i) (image.header (image.header i).link) name j) ∧
        p.entryPoint = BitVec.ofNat 64 (image.num ((image.header i).entryOffset k + 8) 8)) ∧
    (∃ i, firstSection image (· ≠ 0) i ∧
      p.loadAddress = BitVec.ofNat 64 (image.header i).addr - BitVec.ofNat 64 (image.header i).offset)

/-- R266, R268, R276: an accepted image whose first symbol table has a match, with every entry up to it inside the image and
every name that is looked at readable, loads. Decisions D15, D16 and D17. -/
def Obligations.AnImageWithAMatchLoads : Prop :=
  ∀ (image : Image) (name : List Byte) (i k : Nat), image.acceptable = true → firstSection image (· = 2) i →
    (image.header i).link < image.shnum → k < (image.header i).size / 24 →
    (image.header i).entryOffset k + 24 ≤ image.length →
    entryMatches image (image.header i) (image.header (image.header i).link) name k →
    (∀ j, j < k → globalFunction (image.byte ((image.header i).entryOffset j + 4)) = true →
      ∃ other, image.nameAt (image.header (image.header i).link) (image.num ((image.header i).entryOffset j) 4) = some other) →
    ∃ p, load image name = .ok p

/-- R262: what the header checks refuse (decisions D15 and D27). -/
def Obligations.ABadHeaderIsMalformed : Prop :=
  ∀ (image : Image) (name : List Byte),
    (image.length < 64 ∨ image.take 4 ≠ [0x7F, 0x45, 0x4C, 0x46] ∨ image[4]? ≠ some 2 ∨ image[5]? ≠ some 1 ∨
      (0 < image.shnum ∧ image.shentsize ≠ 64) ∨ image.length < image.shoff + 64 * image.shnum) →
    load image name = .error .malformedImage

/-- R268, R271: an accepted image with no symbol table is entry-not-found, and `no-loadable-section` is never returned (an
inference of the spec). -/
def Obligations.NoLoadableSectionIsNeverReported : Prop :=
  ∀ (image : Image) (name : List Byte),
    load image name ≠ .error .noLoadableSection ∧
    (image.acceptable = true → (∀ i, i < image.shnum → (image.header i).type ≠ 2) →
      load image name = .error .entryNotFound)

/-- R268 and the source's property S6 (the order of the checks is decision D17). An accepted image with a symbol table whose
entries are all passed over, an empty table included, is entry-not-found; and no image without a matching entry in its
first symbol table loads. -/
def Obligations.AnImageWithNoMatchIsEntryNotFound : Prop :=
  (∀ (image : Image) (name : List Byte) (i : Nat), image.acceptable = true → firstSection image (· = 2) i →
    (image.header i).link < image.shnum →
    (∀ k, k < (image.header i).size / 24 →
      entryPassedOver image (image.header i) (image.header (image.header i).link) name k) →
    load image name = .error .entryNotFound) ∧
  (∀ (image : Image) (name : List Byte),
    (∀ i k, firstSection image (· = 2) i → k < (image.header i).size / 24 →
      ¬ entryMatches image (image.header i) (image.header (image.header i).link) name k) →
    ∃ e, load image name = .error e)

/-- R262, R264, R276 (decisions D15 and D16): malformed-image raised by the lookup in the first symbol table of an accepted
image. Its string table's index is no section's, even for an empty table; or, every entry before it passed over, an entry
lies partly outside the image, or is a global function whose name no zero byte ends inside the table and the image. -/
def Obligations.ALookupThatRunsOutsideIsMalformed : Prop :=
  ∀ (image : Image) (name : List Byte) (i : Nat), image.acceptable = true → firstSection image (· = 2) i →
    (image.shnum ≤ (image.header i).link → load image name = .error .malformedImage) ∧
    ((image.header i).link < image.shnum → ∀ k, k < (image.header i).size / 24 →
      (∀ j, j < k → entryPassedOver image (image.header i) (image.header (image.header i).link) name j) →
      (image.length < (image.header i).entryOffset k + 24 → load image name = .error .malformedImage) ∧
      ((image.header i).entryOffset k + 24 ≤ image.length →
        globalFunction (image.byte ((image.header i).entryOffset k + 4)) = true →
        unterminated image (image.header (image.header i).link) (image.num ((image.header i).entryOffset k) 4) →
        load image name = .error .malformedImage))

/-! ### Registers by name -/

/-- R305 with R30 (decisions D19 and D9, notes/assumptions/15.md and 16.md): in `Waiting` and `Halted` each name of the two
name columns of R30 answers its slot and any other name is refused; during an activation the query is not enabled. The
spelling of the names is the model's reading of R30, letter for letter. -/
def Obligations.RegisterNamesAnswerTheirSlots : Prop :=
  let sourceNames := ["accumulator", "counter", "data", "base", "stack-pointer", "base-pointer", "source-index",
    "destination-index", "r8", "r9", "r10", "r11", "r12", "r13", "r14", "r15", "instruction pointer", "flags"]
  let specNames := ["RAX", "RCX", "RDX", "RBX", "RSP", "RBP", "RSI", "RDI", "R8", "R9", "R10", "R11", "R12", "R13", "R14",
    "R15", "IP", "FLAGS"]
  ∀ s : State,
    (quiescent s = true →
      (∀ (i : Slot) (name : String), sourceNames[i.val]? = some name ∨ specNames[i.val]? = some name →
        getRegisterByName s name = .value (s.getReg i)) ∧
      (∀ name, name ∉ sourceNames → name ∉ specNames → getRegisterByName s name = .refused)) ∧
    (∀ w name, s.phase = .executing w → getRegisterByName s name = .notEnabled)
end

