-- ==== Sys2Proof/Laws/State.lean ====
section
/-! SUPPORT. One lemma per field per update of the state. -/

namespace Sys2Proof.Machine

/-! ### setReg -/

@[simp] theorem setReg_cfg (s : State) (i : Slot) (v : Word) : (s.setReg i v).cfg = s.cfg := rfl
@[simp] theorem setReg_mem (s : State) (i : Slot) (v : Word) : (s.setReg i v).mem = s.mem := rfl
@[simp] theorem setReg_phase (s : State) (i : Slot) (v : Word) : (s.setReg i v).phase = s.phase := rfl
@[simp] theorem setReg_token (s : State) (i : Slot) (v : Word) : (s.setReg i v).token = s.token := rfl

/-- A slot read after a write of a slot. -/
theorem getReg_setReg (s : State) (i j : Slot) (v : Word) :
    (s.setReg i v).getReg j = if j = i then v else s.getReg j := by
  simp only [State.getReg, State.setReg, Vector.get_eq_getElem, Vector.getElem_set]
  by_cases h : j = i
  · simp [h]
  · have : i.val ≠ j.val := fun e => h (Fin.ext e.symm)
    simp [h, this]

@[simp] theorem getReg_setReg_same (s : State) (i : Slot) (v : Word) : (s.setReg i v).getReg i = v := by
  simp [getReg_setReg]

theorem getReg_setReg_ne (s : State) {i j : Slot} (v : Word) (h : j ≠ i) : (s.setReg i v).getReg j = s.getReg j := by
  simp [getReg_setReg, h]

/-- Two states are equal when their fields and all their slots are. -/
theorem State.ext_slots {s t : State} (hc : s.cfg = t.cfg) (hr : ∀ i, s.getReg i = t.getReg i) (hm : s.mem = t.mem)
    (hp : s.phase = t.phase) (ht : s.token = t.token) : s = t := by
  cases s with | mk c r m p k =>
  cases t with | mk c' r' m' p' k' =>
  simp only at hc hm hp ht
  subst hc; subst hm; subst hp; subst ht
  have : r = r' := Vector.ext fun i hi => by simpa [State.getReg, Vector.get_eq_getElem] using hr ⟨i, hi⟩
  subst this; rfl

/-! ### A record update of another field leaves the slots alone -/

@[simp] theorem getReg_withMem (s : State) (m : Memory) (i : Slot) : ({ s with mem := m } : State).getReg i = s.getReg i := rfl
@[simp] theorem getReg_withPhase (s : State) (p : Phase) (i : Slot) :
    ({ s with phase := p } : State).getReg i = s.getReg i := rfl
@[simp] theorem getReg_withToken (s : State) (b : Bool) (i : Slot) :
    ({ s with token := b } : State).getReg i = s.getReg i := rfl

/-! ### advance -/

@[simp] theorem advance_cfg (s : State) (n : Nat) : (s.advance n).cfg = s.cfg := rfl
@[simp] theorem advance_mem (s : State) (n : Nat) : (s.advance n).mem = s.mem := rfl
@[simp] theorem advance_phase (s : State) (n : Nat) : (s.advance n).phase = s.phase := rfl
@[simp] theorem advance_token (s : State) (n : Nat) : (s.advance n).token = s.token := rfl

theorem getReg_advance (s : State) (n : Nat) (j : Slot) :
    (s.advance n).getReg j = if j = IP then s.ip + BitVec.ofNat 64 n else s.getReg j := getReg_setReg ..

@[simp] theorem advance_ip (s : State) (n : Nat) : (s.advance n).ip = s.ip + BitVec.ofNat 64 n := getReg_setReg_same ..

/-! ### raise -/

@[simp] theorem raise_cfg (f : EngineFault) (s : State) : (raise f s).cfg = s.cfg := rfl
@[simp] theorem raise_regs (f : EngineFault) (s : State) : (raise f s).regs = s.regs := rfl
@[simp] theorem raise_mem (f : EngineFault) (s : State) : (raise f s).mem = s.mem := rfl
@[simp] theorem raise_phase (f : EngineFault) (s : State) : (raise f s).phase = .halted (.faulted f) := rfl
@[simp] theorem raise_token (f : EngineFault) (s : State) : (raise f s).token = s.token := rfl
@[simp] theorem raise_getReg (f : EngineFault) (s : State) (i : Slot) : (raise f s).getReg i = s.getReg i := rfl
@[simp] theorem raise_ip (f : EngineFault) (s : State) : (raise f s).ip = s.ip := rfl

/-! ### boundary -/

@[simp] theorem boundary_cfg (s : State) : (boundary s).cfg = s.cfg := rfl
@[simp] theorem boundary_regs (s : State) : (boundary s).regs = s.regs := rfl
@[simp] theorem boundary_mem (s : State) : (boundary s).mem = s.mem := rfl
@[simp] theorem boundary_token (s : State) : (boundary s).token = s.token := rfl
@[simp] theorem boundary_getReg (s : State) (i : Slot) : (boundary s).getReg i = s.getReg i := rfl
@[simp] theorem boundary_ip (s : State) : (boundary s).ip = s.ip := rfl
@[simp] theorem boundary_sentinel (s : State) : (boundary s).sentinel = s.sentinel := rfl
@[simp] theorem boundary_exitCode (s : State) : (boundary s).exitCode = s.exitCode := rfl

/-- The phase the boundary check leaves. -/
theorem boundary_phase (s : State) :
    (boundary s).phase = if s.ip = s.sentinel then .halted (.exited s.exitCode) else .waiting := rfl

/-! ### consume -/

@[simp] theorem consume_cfg (s : State) : (consume s).cfg = s.cfg := rfl
@[simp] theorem consume_regs (s : State) : (consume s).regs = s.regs := rfl
@[simp] theorem consume_mem (s : State) : (consume s).mem = s.mem := rfl
@[simp] theorem consume_phase (s : State) : (consume s).phase = .executing .w32 := rfl
@[simp] theorem consume_token (s : State) : (consume s).token = false := rfl
@[simp] theorem consume_getReg (s : State) (i : Slot) : (consume s).getReg i = s.getReg i := rfl
@[simp] theorem consume_ip (s : State) : (consume s).ip = s.ip := rfl
@[simp] theorem consume_width (s : State) : (consume s).width = .w32 := rfl

/-! ### finish -/

/-- The end of an activation changes the phase only. -/
@[simp] theorem finish_cfg (s : State) : (finish s).cfg = s.cfg := by unfold finish; split <;> rfl
@[simp] theorem finish_regs (s : State) : (finish s).regs = s.regs := by unfold finish; split <;> rfl
@[simp] theorem finish_mem (s : State) : (finish s).mem = s.mem := by unfold finish; split <;> rfl
@[simp] theorem finish_token (s : State) : (finish s).token = s.token := by unfold finish; split <;> rfl
@[simp] theorem finish_getReg (s : State) (i : Slot) : (finish s).getReg i = s.getReg i := by unfold finish; split <;> rfl
@[simp] theorem finish_ip (s : State) : (finish s).ip = s.ip := finish_getReg ..

/-- A halted state is left as it is. -/
theorem finish_of_halted {s : State} {h : Halt} (hs : s.phase = .halted h) : finish s = s := by simp [finish, hs]

/-- The boundary check ends an activation that took no fault. -/
theorem finish_of_executing {s : State} {w : Width} (hs : s.phase = .executing w) : finish s = boundary s := by
  simp [finish, hs]

end Sys2Proof.Machine
end

