-- ==== Sys2Proof/Laws/Ops.lean ====
section
/-! SUPPORT. What each shared operation can answer, said once. -/

namespace Sys2Proof.Machine

/-! ### The memory primitives -/

theorem memRead_of_inRange {s : State} {a : Word} {n : Nat} (h : s.inRange a n) :
    memRead s a n = .ok (leNat (s.mem.readBytes a.toNat n)) := if_pos h

theorem memRead_of_not_inRange {s : State} {a : Word} {n : Nat} (h : ¬ s.inRange a n) :
    memRead s a n = .error (.memoryFault a n) := if_neg h

theorem memRead_ok_iff {s : State} {a : Word} {n v : Nat} :
    memRead s a n = .ok v ↔ s.inRange a n ∧ v = leNat (s.mem.readBytes a.toNat n) := by
  by_cases h : s.inRange a n
  · rw [memRead_of_inRange h]; simp [h, eq_comm]
  · rw [memRead_of_not_inRange h]; simp [h]

theorem memRead_error_iff {s : State} {a : Word} {n : Nat} {f : EngineFault} :
    memRead s a n = .error f ↔ ¬ s.inRange a n ∧ f = .memoryFault a n := by
  by_cases h : s.inRange a n
  · rw [memRead_of_inRange h]; simp [h]
  · rw [memRead_of_not_inRange h]; simp [h, eq_comm]

theorem memWrite_of_inRange {s : State} {a : Word} {n : Nat} (v : Nat) (h : s.inRange a n) :
    memWrite s a n v = .ok { s with mem := s.mem.writeBytes a.toNat (leBytes n v) } := if_pos h

theorem memWrite_of_not_inRange {s : State} {a : Word} {n : Nat} (v : Nat) (h : ¬ s.inRange a n) :
    memWrite s a n v = .error (.memoryFault a n) := if_neg h

theorem memWrite_ok_iff {s t : State} {a : Word} {n v : Nat} :
    memWrite s a n v = .ok t ↔ s.inRange a n ∧ t = { s with mem := s.mem.writeBytes a.toNat (leBytes n v) } := by
  by_cases h : s.inRange a n
  · rw [memWrite_of_inRange v h]; simp [h, eq_comm]
  · rw [memWrite_of_not_inRange v h]; simp [h]

theorem memWrite_error_iff {s : State} {a : Word} {n v : Nat} {f : EngineFault} :
    memWrite s a n v = .error f ↔ ¬ s.inRange a n ∧ f = .memoryFault a n := by
  by_cases h : s.inRange a n
  · rw [memWrite_of_inRange v h]; simp [h]
  · rw [memWrite_of_not_inRange v h]; simp [h, eq_comm]

/-- A write keeps the canonical form of memory. -/
theorem memWrite_wf {s t : State} {a : Word} {n v : Nat} (h : memWrite s a n v = .ok t) (hs : s.mem.wf = true) :
    t.mem.wf = true := by
  obtain ⟨_, rfl⟩ := memWrite_ok_iff.1 h
  exact Memory.writeBytes_wf _ _ hs

/-- A write lists no address outside memory. -/
theorem memWrite_within {s t : State} {a : Word} {n v : Nat} (h : memWrite s a n v = .ok t)
    (hs : s.mem.within s.cfg.memSize = true) : t.mem.within t.cfg.memSize = true := by
  obtain ⟨hr, rfl⟩ := memWrite_ok_iff.1 h
  exact Memory.writeBytes_within _ hs (by simpa using hr)

/-- The number a read gives fits its width. -/
theorem leNat_readBytes_lt (m : Memory) (a n : Nat) : leNat (m.readBytes a n) < 256 ^ n := by
  simpa using leNat_lt (m.readBytes a n)

/-- A fetch of one byte. -/
theorem fetchByte_eq (s : State) (a : Word) :
    fetchByte s a = if s.inRange a 1 then .ok (s.mem.read a.toNat) else .error (.memoryFault a 1) := by
  by_cases h : s.inRange a 1
  · simp [fetchByte, memRead_of_inRange h, h, Memory.readBytes, leNat]
  · simp [fetchByte, memRead_of_not_inRange h, h]

/-! ### Fetching an instruction -/

/-- The operand bytes the instruction at the instruction pointer has. -/
abbrev State.operandCount (s : State) : Nat := operandBytes s.width (s.mem.read s.ip.toNat)

/-- Fetching an instruction decodes the byte at the instruction pointer with its operand bytes, or is the MemoryFault of
the first of the two accesses that is out of range. -/
theorem fetchInstr_cases (s : State) :
    (¬ s.inRange s.ip 1 ∧ fetchInstr s = .error (.memoryFault s.ip 1)) ∨
    (s.inRange s.ip 1 ∧ ¬ s.inRange (s.ip + 1) s.operandCount ∧
      fetchInstr s = .error (.memoryFault (s.ip + 1) s.operandCount)) ∨
    (s.inRange s.ip 1 ∧ s.inRange (s.ip + 1) s.operandCount ∧
      fetchInstr s = .ok (decodeOpcode s.width (s.mem.read s.ip.toNat)
        (leNat (s.mem.readBytes (s.ip + 1).toNat s.operandCount)))) := by
  by_cases h1 : s.inRange s.ip 1
  · by_cases h2 : s.inRange (s.ip + 1) s.operandCount
    · exact .inr (.inr ⟨h1, h2, by simp only [fetchInstr, fetchByte_eq, if_pos h1, memRead_of_inRange h2]⟩)
    · exact .inr (.inl ⟨h1, h2, by simp only [fetchInstr, fetchByte_eq, if_pos h1, memRead_of_not_inRange h2]⟩)
  · exact .inl ⟨h1, by simp [fetchInstr, fetchByte_eq, h1]⟩

/-- The prefix is what the byte 0x48 decodes to, and nothing else decodes to it. -/
theorem decodeOpcode_eq_prefixW64 {w : Width} {b : Byte} {v : Nat} : decodeOpcode w b v = .prefixW64 ↔ b = 0x48 := by
  unfold decodeOpcode
  constructor
  · intro h
    by_contra hb
    simp only [hb, if_false] at h
    repeat' split at h
    all_goals simp at h
  · intro h; simp [h]

/-- The bytes outside the decoded ranges are the illegal ones. -/
theorem illegalByte_of_no_row : ∀ b : Byte, b ≠ 0x48 → ¬ (0x50 ≤ b ∧ b ≤ 0x57) → ¬ (0x58 ≤ b ∧ b ≤ 0x5F) → b ≠ 0x89 →
    ¬ (0xB8 ≤ b ∧ b ≤ 0xBF) → b ≠ 0xC3 → illegalByte b = true := by decide

/-- Every byte that decodes to ILLEGAL is in one of the illegal ranges, and stands for itself. -/
theorem decodeOpcode_eq_illegal {w : Width} {b c : Byte} {v : Nat} (h : decodeOpcode w b v = .illegal c) :
    c = b ∧ illegalByte b = true := by
  unfold decodeOpcode at h
  repeat' split at h
  all_goals simp at h
  rename_i h1 h2 h3 h4 h5 h6
  exact ⟨h.symm, illegalByte_of_no_row b h1 h2 h3 h4 h5 h6⟩

/-! ### An activation -/

/-- One turn of an activation with bytes left: the fetch's fault, a prefix and the rest of the activation, or another
instruction and the end of the activation. -/
theorem activateFrom_succ {n : Nat} {s : State} {t : State} (h : activateFrom (n + 1) s = .next t) :
    (∃ f, fetchInstr s = .error f ∧ t = raise f s) ∨
    (fetchInstr s = .ok .prefixW64 ∧ ∃ u, exec .prefixW64 s = .next u ∧ activateFrom n u = .next t) ∨
    (∃ i u, fetchInstr s = .ok i ∧ i ≠ .prefixW64 ∧ exec i s = .next u ∧ t = finish u) := by
  simp only [activateFrom] at h
  split at h
  · rename_i f hf
    exact .inl ⟨f, hf, by simpa using h.symm⟩
  · rename_i i hi
    split at h
    · rename_i u hu
      split at h
      · rename_i hp
        subst hp
        exact .inr (.inl ⟨hi, u, hu, h⟩)
      · rename_i hp
        exact .inr (.inr ⟨i, u, hi, hp, hu, by simpa using h.symm⟩)
    · rename_i r _; cases r
    · simp at h

/-- An activation with no byte left at the instruction pointer. -/
theorem activateFrom_zero {s t : State} : activateFrom 0 s = .next t ↔ t = raise (.memoryFault s.ip 1) s := by
  simp [activateFrom, eq_comm]

/-- Consuming a prefix with a byte left leaves one byte less. -/
theorem bytesLeft_prefix {s t : State} (hw : s.cfg.wf) (hi : s.inRange s.ip 1) (h : exec .prefixW64 s = .next t) :
    t.ip.toNat = s.ip.toNat + 1 ∧ s.bytesLeft = t.bytesLeft + 1 := by
  simp only [exec, execPrefixW64, Host.Outcome.next.injEq] at h
  subst h
  obtain ⟨_, h2, _, _⟩ := hw
  have h1 : ({ s.advance 1 with phase := .executing .w64 } : State).ip = s.ip + 1#64 := advance_ip s 1
  have h0 : (s.ip + 1#64).toNat = s.ip.toNat + 1 := by
    simp only [BitVec.toNat_add, BitVec.toNat_ofNat]
    omega
  rw [State.bytesLeft, State.bytesLeft, h1, h0, advance_cfg]
  omega

/-! ### The step -/

/-- What a step can do. -/
theorem step_cases {s t : State} (h : step s = .next t) :
    (s.phase = .waiting ∧ s.token = true ∧ activate (consume s) = .next t) ∨
    (s.phase = .waiting ∧ s.token = false ∧ t = s) ∨
    (∃ w, s.phase = .executing w ∧ activate s = .next t) ∨
    (∃ e, s.phase = .halted e ∧ t = s) := by
  simp only [step, engineStep] at h
  split at h
  · rename_i hp
    split at h
    · rename_i hk; exact .inl ⟨hp, hk, h⟩
    · rename_i hk; exact .inr (.inl ⟨hp, by simpa using hk, by simpa using h.symm⟩)
  · rename_i w hp; exact .inr (.inr (.inl ⟨w, hp, h⟩))
  · rename_i e hp; exact .inr (.inr (.inr ⟨e, hp, by simpa using h.symm⟩))

/-- In `Waiting` with a token a step is one activation. -/
theorem step_of_token {s : State} (hp : s.phase = .waiting) (hk : s.token = true) : step s = activate (consume s) := by
  simp [step, engineStep, hp, hk]

end Sys2Proof.Machine
end

