-- ==== Sys2Proof/Laws/Meanings.lean ====
section
/-! SUPPORT. Each meaning in the two cases of its one memory access, and the operand forms. -/

namespace Sys2Proof.Machine

/-! ### Operand forms -/

theorem slotOf_ne_ip : ∀ r : BitVec 3, slotOf r ≠ IP := by decide
theorem slotOf_ne_flags : ∀ r : BitVec 3, slotOf r ≠ FLAGS := by decide
theorem slotOf_lt : ∀ r : BitVec 3, (slotOf r).val < 8 := by decide
theorem slotOf_injective : ∀ r q : BitVec 3, slotOf r = slotOf q → r = q := by decide

/-- A write of another slot leaves the instruction pointer alone. -/
theorem setReg_ip_ne (s : State) {i : Slot} (v : Word) (h : i ≠ IP) : (s.setReg i v).ip = s.ip :=
  getReg_setReg_ne s v h.symm

/-- Writes of two different slots commute. -/
theorem setReg_comm (s : State) {i j : Slot} (v w : Word) (h : i ≠ j) :
    (s.setReg i v).setReg j w = (s.setReg j w).setReg i v := by
  refine State.ext_slots rfl (fun k => ?_) rfl rfl rfl
  simp only [getReg_setReg]
  by_cases h1 : k = i <;> by_cases h2 : k = j <;> simp_all

/-- PUSH is in range exactly when the stack pointer is in `8..N` (R180 corner case (e)), and its address is then 8 below. -/
theorem pushAddress_inRange {s : State} (h1 : 8 ≤ (s.getReg RSP).toNat) (h2 : (s.getReg RSP).toNat ≤ s.cfg.memSize) :
    (pushAddress s).toNat = (s.getReg RSP).toNat - 8 ∧ s.inRange (pushAddress s) 8 := by
  have h : (pushAddress s).toNat = (s.getReg RSP).toNat - 8 := by
    have := (s.getReg RSP).isLt
    simp only [pushAddress, BitVec.toNat_sub, BitVec.toNat_ofNat, BitVec.ofNat_eq_ofNat]
    omega
  exact ⟨h, by simp only [State.inRange]; omega⟩

/-- Outside `8..N` the address wraps or lies too high, and PUSH is out of range. -/
theorem pushAddress_not_inRange {s : State} (hw : s.cfg.wf)
    (h : (s.getReg RSP).toNat < 8 ∨ s.cfg.memSize < (s.getReg RSP).toNat) : ¬ s.inRange (pushAddress s) 8 := by
  have := (s.getReg RSP).isLt
  obtain ⟨_, _, _, _⟩ := hw
  simp only [State.inRange, pushAddress, BitVec.toNat_sub, BitVec.toNat_ofNat, BitVec.ofNat_eq_ofNat]
  omega

/-! ### Meanings -/

theorem execPush_of_inRange {s : State} (r : BitVec 3) (h : s.inRange (pushAddress s) 8) :
    execPush r s = .next ((({ s with
      mem := s.mem.writeBytes (pushAddress s).toNat (leBytes 8 (pushValue r s).toNat) } : State).setReg
        RSP (pushAddress s)).advance 1) := by
  simp only [execPush, memWrite_of_inRange _ h]

theorem execPush_of_not_inRange {s : State} (r : BitVec 3) (h : ¬ s.inRange (pushAddress s) 8) :
    execPush r s = .next (raise (.memoryFault (pushAddress s) 8) s) := by
  simp only [execPush, memWrite_of_not_inRange _ h]

/-- The 8-byte word at an address. -/
def Memory.word (m : Memory) (a : Nat) : Word := BitVec.ofNat 64 (leNat (m.readBytes a 8))

theorem execPop_of_inRange {s : State} (r : BitVec 3) (h : s.inRange (popAddress s) 8) :
    execPop r s = .next ((popInto r (s.mem.word (popAddress s).toNat) s).advance 1) := by
  simp only [execPop, memRead_of_inRange h, Memory.word]

theorem execPop_of_not_inRange {s : State} (r : BitVec 3) (h : ¬ s.inRange (popAddress s) 8) :
    execPop r s = .next (raise (.memoryFault (popAddress s) 8) s) := by
  simp only [execPop, memRead_of_not_inRange h]

theorem execRet_of_inRange {s : State} (h : s.inRange (popAddress s) 8) :
    execRet s = .next ((s.setReg RSP (popAddress s + 8)).setReg IP (s.mem.word (popAddress s).toNat)) := by
  simp only [execRet, memRead_of_inRange h, Memory.word]

theorem execRet_of_not_inRange {s : State} (h : ¬ s.inRange (popAddress s) 8) :
    execRet s = .next (raise (.memoryFault (popAddress s) 8) s) := by
  simp only [execRet, memRead_of_not_inRange h]

/-- The slots POP writes: for a destination other than the stack pointer. -/
theorem popInto_getReg_of_ne {r : BitVec 3} (h : slotOf r ≠ RSP) (v : Word) (s : State) (j : Slot) :
    (popInto r v s).getReg j =
      if j = RSP then s.getReg RSP + 8 else if j = slotOf r then v else s.getReg j := by
  simp only [popInto, getReg_setReg, if_neg (Ne.symm h)]

/-- The slots POP RSP writes. -/
theorem popInto_getReg_of_rsp {r : BitVec 3} (h : slotOf r = RSP) (v : Word) (s : State) (j : Slot) :
    (popInto r v s).getReg j = if j = RSP then v + 8 else s.getReg j := by
  simp only [popInto, h, getReg_setReg]
  split <;> simp_all

@[simp] theorem popInto_ip (r : BitVec 3) (v : Word) (s : State) : (popInto r v s).ip = s.ip := by
  rw [popInto, setReg_ip_ne _ _ (by decide), setReg_ip_ne _ _ (slotOf_ne_ip r)]

@[simp] theorem popInto_mem (r : BitVec 3) (v : Word) (s : State) : (popInto r v s).mem = s.mem := rfl
@[simp] theorem popInto_cfg (r : BitVec 3) (v : Word) (s : State) : (popInto r v s).cfg = s.cfg := rfl
@[simp] theorem popInto_phase (r : BitVec 3) (v : Word) (s : State) : (popInto r v s).phase = s.phase := rfl
@[simp] theorem popInto_token (r : BitVec 3) (v : Word) (s : State) : (popInto r v s).token = s.token := rfl

/-- The parameters and the token are no instruction's to change. -/
theorem exec_keeps_cfg_token {i : Instr} {s t : State} (h : exec i s = .next t) : t.cfg = s.cfg ∧ t.token = s.token := by
  have done : ∀ {u : State}, Host.Outcome.next u = (.next t : Host.Outcome State Fault Refusal) →
      u.cfg = s.cfg → u.token = s.token → t.cfg = s.cfg ∧ t.token = s.token := by
    intro u hu h1 h2
    simp only [Host.Outcome.next.injEq] at hu
    subst hu
    exact ⟨h1, h2⟩
  cases i with
  | prefixW64 => exact done h rfl rfl
  | movRmR m a b => exact done h rfl rfl
  | movRImm32 r imm => exact done h rfl rfl
  | movRImm64 r imm => exact done h rfl rfl
  | illegal b => exact done h rfl rfl
  | push r =>
    by_cases hi : s.inRange (pushAddress s) 8
    · exact done ((execPush_of_inRange r hi).symm.trans h) rfl rfl
    · exact done ((execPush_of_not_inRange r hi).symm.trans h) rfl rfl
  | pop r =>
    by_cases hi : s.inRange (popAddress s) 8
    · exact done ((execPop_of_inRange r hi).symm.trans h) rfl rfl
    · exact done ((execPop_of_not_inRange r hi).symm.trans h) rfl rfl
  | ret =>
    by_cases hi : s.inRange (popAddress s) 8
    · exact done (execRet_of_inRange hi |>.symm.trans h) rfl rfl
    · exact done (execRet_of_not_inRange hi |>.symm.trans h) rfl rfl

end Sys2Proof.Machine
end

