-- ==== Sys2Proof/Laws/Activation.lean ====
section
/-! SUPPORT. Activations: every instruction answers, what its phase can become, the prefix scan, and an induction over an
activation's turns. -/

namespace Sys2Proof.Machine

/-! ### Every instruction answers a next state -/

theorem exec_total (i : Instr) (s : State) : ∃ t, exec i s = .next t := by
  cases i with
  | push r =>
    by_cases hi : s.inRange (pushAddress s) 8
    · exact ⟨_, execPush_of_inRange r hi⟩
    · exact ⟨_, execPush_of_not_inRange r hi⟩
  | pop r =>
    by_cases hi : s.inRange (popAddress s) 8
    · exact ⟨_, execPop_of_inRange r hi⟩
    · exact ⟨_, execPop_of_not_inRange r hi⟩
  | ret =>
    by_cases hi : s.inRange (popAddress s) 8
    · exact ⟨_, execRet_of_inRange hi⟩
    · exact ⟨_, execRet_of_not_inRange hi⟩
  | prefixW64 => exact ⟨_, rfl⟩
  | movRmR m a b => exact ⟨_, rfl⟩
  | movRImm32 r imm => exact ⟨_, rfl⟩
  | movRImm64 r imm => exact ⟨_, rfl⟩
  | illegal b => exact ⟨_, rfl⟩

theorem activateFrom_total (n : Nat) (s : State) : ∃ t, activateFrom n s = .next t := by
  induction n generalizing s with
  | zero => exact ⟨_, rfl⟩
  | succ n ih =>
    rw [activateFrom]
    cases fetchInstr s with
    | error f => exact ⟨_, rfl⟩
    | ok i =>
      obtain ⟨t, ht⟩ := exec_total i s
      simp only [ht]
      split
      · exact ih t
      · exact ⟨_, rfl⟩

/-- An instruction other than a prefix leaves the phase alone or takes a fault. -/
theorem exec_phase {i : Instr} {s t : State} (hi : i ≠ .prefixW64) (h : exec i s = .next t) :
    t.phase = s.phase ∨ ∃ f, t.phase = .halted (.faulted f) := by
  have done : ∀ {u : State}, exec i s = .next u → (u.phase = s.phase ∨ ∃ f, u.phase = .halted (.faulted f)) →
      (t.phase = s.phase ∨ ∃ f, t.phase = .halted (.faulted f)) := by
    intro u hu h'
    rw [hu, Host.Outcome.next.injEq] at h
    exact h ▸ h'
  cases i with
  | prefixW64 => exact absurd rfl hi
  | push r =>
    by_cases hr : s.inRange (pushAddress s) 8
    · exact done (execPush_of_inRange r hr) (.inl rfl)
    · exact done (execPush_of_not_inRange r hr) (.inr ⟨_, rfl⟩)
  | pop r =>
    by_cases hr : s.inRange (popAddress s) 8
    · exact done (execPop_of_inRange r hr) (.inl rfl)
    · exact done (execPop_of_not_inRange r hr) (.inr ⟨_, rfl⟩)
  | ret =>
    by_cases hr : s.inRange (popAddress s) 8
    · exact done (execRet_of_inRange hr) (.inl rfl)
    · exact done (execRet_of_not_inRange hr) (.inr ⟨_, rfl⟩)
  | illegal b => exact done rfl (.inr ⟨_, rfl⟩)
  | movRmR m a b => exact done rfl (.inl rfl)
  | movRImm32 r imm => exact done rfl (.inl rfl)
  | movRImm64 r imm => exact done rfl (.inl rfl)

/-! ### Turns of an activation -/

theorem exec_prefixW64_eq {s u : State} (h : exec .prefixW64 s = .next u) :
    u = { s.advance 1 with phase := .executing .w64 } := by
  simpa [exec, execPrefixW64, eq_comm] using h

/-- The address after the instruction pointer does not wrap while a byte lies there (R39). -/
theorem ip_succ_toNat {s : State} (hw : s.cfg.wf) (h : s.inRange s.ip 1) : (s.ip + 1).toNat = s.ip.toNat + 1 := by
  obtain ⟨_, h2, _, _⟩ := hw
  simp only [State.inRange] at h
  simp only [BitVec.toNat_add, BitVec.toNat_ofNat, BitVec.ofNat_eq_ofNat]
  omega

/-- A property of the state before and the state after an activation holds when it holds of each way to end and is passed
back over a prefix. -/
theorem activateFrom_ind {P : State → State → Prop}
    (noByte : ∀ s, s.bytesLeft = 0 → P s (raise (.memoryFault s.ip 1) s))
    (badFetch : ∀ s f, fetchInstr s = .error f → P s (raise f s))
    (run : ∀ s i u, fetchInstr s = .ok i → i ≠ .prefixW64 → exec i s = .next u → P s (finish u))
    (scan : ∀ s u t, fetchInstr s = .ok .prefixW64 → s.inRange s.ip 1 → s.mem.read s.ip.toNat = 0x48 →
      exec .prefixW64 s = .next u → P u t → P s t) :
    ∀ n s t, s.cfg.wf → n = s.bytesLeft → activateFrom n s = .next t → P s t := by
  intro n
  induction n with
  | zero =>
    intro s t _ hn h
    rw [activateFrom_zero.1 h]
    exact noByte s hn.symm
  | succ n ih =>
    intro s t hw hn h
    rcases activateFrom_succ h with ⟨f, h1, rfl⟩ | ⟨h1, u, h2, h3⟩ | ⟨i, u, h1, h2, h3, rfl⟩
    · exact badFetch s f h1
    · have hin : s.inRange s.ip 1 ∧ s.mem.read s.ip.toNat = 0x48 := by
        rcases fetchInstr_cases s with ⟨_, e⟩ | ⟨_, _, e⟩ | ⟨a, _, e⟩
        · rw [e] at h1; simp at h1
        · rw [e] at h1; simp at h1
        · rw [e, Except.ok.injEq] at h1
          exact ⟨a, decodeOpcode_eq_prefixW64.1 h1⟩
      have hb := bytesLeft_prefix hw hin.1 h2
      exact scan s u t h1 hin.1 hin.2 h2 (ih u t ((exec_keeps_cfg_token h2).1 ▸ hw) (by omega) h3)
    · exact run s i u h1 h2 h3

/-- The parameters and the token are no activation's to change. -/
theorem activateFrom_keeps_cfg_token {n : Nat} {s t : State} (h : activateFrom n s = .next t) :
    t.cfg = s.cfg ∧ t.token = s.token := by
  induction n generalizing s with
  | zero => rw [activateFrom_zero.1 h]; exact ⟨rfl, rfl⟩
  | succ n ih =>
    rcases activateFrom_succ h with ⟨f, h1, rfl⟩ | ⟨h1, u, h2, h3⟩ | ⟨i, u, h1, h2, h3, rfl⟩
    · exact ⟨rfl, rfl⟩
    · have hu := exec_keeps_cfg_token h2
      exact ⟨(ih h3).1.trans hu.1, (ih h3).2.trans hu.2⟩
    · simpa using exec_keeps_cfg_token h3

theorem activate_of_other {s u : State} {i : Instr} (h0 : s.inRange s.ip 1) (h1 : fetchInstr s = .ok i)
    (h2 : i ≠ .prefixW64) (h3 : exec i s = .next u) : activate s = .next (finish u) := by
  obtain ⟨n, hn⟩ : ∃ n, s.bytesLeft = n + 1 :=
    ⟨s.bytesLeft - 1, by simp only [State.bytesLeft, State.inRange] at *; omega⟩
  simp [activate, hn, activateFrom, h1, h3, h2]

theorem activate_of_prefix {s u : State} (hw : s.cfg.wf) (h0 : s.inRange s.ip 1)
    (h1 : fetchInstr s = .ok .prefixW64) (h3 : exec .prefixW64 s = .next u) : activate s = activate u := by
  simp [activate, (bytesLeft_prefix hw h0 h3).2, activateFrom, h1, h3]

theorem activate_of_error {s : State} {f : EngineFault} (h1 : fetchInstr s = .error f) :
    activate s = .next (raise f s) := by
  by_cases h0 : s.inRange s.ip 1
  · obtain ⟨n, hn⟩ : ∃ n, s.bytesLeft = n + 1 :=
      ⟨s.bytesLeft - 1, by simp only [State.bytesLeft, State.inRange] at *; omega⟩
    simp [activate, hn, activateFrom, h1]
  · have hz : s.bytesLeft = 0 := by simp only [State.bytesLeft, State.inRange] at *; omega
    rcases fetchInstr_cases s with ⟨_, e⟩ | ⟨a, _⟩ | ⟨a, _⟩
    · rw [e, Except.error.injEq] at h1
      subst h1
      simp [activate, hz, activateFrom]
    · exact absurd a h0
    · exact absurd a h0

/-! ### The prefix scan -/

theorem afterPrefixes_ip (s : State) (p : Nat) : (afterPrefixes s p).ip = s.ip + BitVec.ofNat 64 p :=
  advance_ip (consume s) p

theorem afterPrefixes_getReg (s : State) (p : Nat) {i : Slot} (h : i ≠ IP) :
    (afterPrefixes s p).getReg i = s.getReg i :=
  (getReg_advance (consume s) p i).trans (if_neg h)

/-- The scan's instruction pointer does not wrap. -/
theorem afterPrefixes_ip_toNat {s : State} {p : Nat} (hw : s.cfg.wf) (h : prefixesAtIp s p) :
    (afterPrefixes s p).ip.toNat = s.ip.toNat + p := by
  rw [afterPrefixes_ip]
  obtain ⟨_, h2, _, _⟩ := hw
  have h3 := s.ip.isLt
  have : s.ip.toNat + p < 2 ^ 64 := by
    cases p with
    | zero => simpa using h3
    | succ p => have := (h p (by omega)).1; omega
  simp only [BitVec.toNat_add, BitVec.toNat_ofNat]
  omega

theorem exec_prefixW64_afterPrefixes (s : State) (p : Nat) :
    exec .prefixW64 (afterPrefixes s p) = .next (afterPrefixes s (p + 1)) := by
  simp only [exec, execPrefixW64, Host.Outcome.next.injEq]
  refine State.ext_slots rfl (fun i => ?_) rfl (by simp [afterPrefixes, widthAfter]) rfl
  by_cases hi : i = IP
  · subst hi
    have h1 : ((afterPrefixes s p).advance 1).ip = (afterPrefixes s (p + 1)).ip := by
      rw [advance_ip, afterPrefixes_ip, afterPrefixes_ip, BitVec.add_assoc]
      congr 1
      apply BitVec.eq_of_toNat_eq
      simp
    exact h1
  · rw [afterPrefixes_getReg s (p + 1) hi, ← afterPrefixes_getReg s p hi]
    exact (getReg_advance (afterPrefixes s p) 1 i).trans (if_neg hi)

/-- An activation that finds `p` prefixes goes on from the state after them. -/
theorem activate_afterPrefixes {s : State} {p : Nat} (hw : s.cfg.wf) (h : prefixesAtIp s p) :
    activate (consume s) = activate (afterPrefixes s p) := by
  induction p with
  | zero =>
    congr 1
    refine State.ext_slots rfl (fun i => ?_) rfl rfl rfl
    by_cases hi : i = IP
    · subst hi
      exact ((afterPrefixes_ip s 0).trans (by simp; rfl)).symm
    · exact (afterPrefixes_getReg s 0 hi).symm
  | succ p ih =>
    have h' : prefixesAtIp s p := fun k hk => h k (by omega)
    rw [ih h']
    have hip := afterPrefixes_ip_toNat hw h'
    have hin : (afterPrefixes s p).inRange (afterPrefixes s p).ip 1 := by
      have := (h p (by omega)).1
      simp only [State.inRange, hip]
      exact this
    have hb : (afterPrefixes s p).mem.read (afterPrefixes s p).ip.toNat = 0x48 := by
      rw [hip]; exact (h p (by omega)).2
    have h0 : operandBytes (afterPrefixes s p).width 0x48 = 0 := by cases (afterPrefixes s p).width <;> rfl
    refine activate_of_prefix hw hin ?_ (exec_prefixW64_afterPrefixes s p)
    rcases fetchInstr_cases (afterPrefixes s p) with ⟨a, _⟩ | ⟨_, a, _⟩ | ⟨_, _, e⟩
    · exact absurd hin a
    · exfalso; apply a
      simp only [State.operandCount, hb, h0, State.inRange, Nat.add_zero]
      rw [ip_succ_toNat (s := afterPrefixes s p) hw hin]; exact hin
    · rw [e, hb]; rfl

/-- The bytes in memory at the instruction pointer decode to what the fetch answers. -/
theorem fetchInstr_of_decode {s : State} {i : Instr} {n : Nat} (hw : s.cfg.wf) (hr : s.ip.toNat + n ≤ s.cfg.memSize)
    (hd : decode s.width (s.mem.readBytes s.ip.toNat n) = .ok (i, [])) :
    s.inRange s.ip 1 ∧ fetchInstr s = .ok i := by
  cases n with
  | zero => simp [Memory.readBytes, decode] at hd
  | succ n =>
    have h0 : s.inRange s.ip 1 := by simp only [State.inRange]; omega
    refine ⟨h0, ?_⟩
    have hs := ip_succ_toNat hw h0
    rw [Memory.readBytes, decode] at hd
    split at hd
    · simp at hd
    · rename_i hl
      simp only [Memory.readBytes_length, Except.ok.injEq, Prod.mk.injEq] at hd hl
      obtain ⟨rfl, h2⟩ := hd
      have hn : n = s.operandCount := by
        have := congrArg List.length h2
        simp at this
        simp only [State.operandCount]
        omega
      rcases fetchInstr_cases s with ⟨a, _⟩ | ⟨_, a, _⟩ | ⟨_, _, e⟩
      · exact absurd h0 a
      · exfalso; apply a; simp only [State.inRange]; omega
      · rw [e, hs, ← hn, show operandBytes s.width (s.mem.read s.ip.toNat) = n from hn.symm,
          List.take_of_length_le (by simp)]

end Sys2Proof.Machine
end

