-- ==== Sys2Proof/Laws/Driver.lean ====
section
/-! SUPPORT. Moves and schedules of the two agents. -/

namespace Sys2Proof.Machine

/-- What a move can do. -/
theorem applyMove_cases {m : Move} {s t : State} (h : applyMove s m = some t) :
    (m = .grant ∧ s.token = false ∧ t = { s with token := true }) ∨
    (m = .engine ∧ s.phase = .waiting ∧ s.token = true ∧ step s = .next t) := by
  cases m with
  | grant =>
    refine .inl ⟨rfl, ?_⟩
    simp only [applyMove, grantStep] at h
    cases hk : s.token <;> simp [hk] at h
    exact ⟨rfl, h.symm⟩
  | engine =>
    refine .inr ⟨rfl, ?_⟩
    simp only [applyMove] at h
    split at h
    · rename_i he
      simp only [engineEnabled, Bool.and_eq_true, decide_eq_true_eq] at he
      split at h
      · rename_i u hu
        rw [Option.some.injEq] at h
        exact ⟨he.1, he.2, h ▸ hu⟩
      · simp at h
      · simp at h
    · simp at h

theorem applyMove_grant {s : State} (h : s.token = false) : applyMove s .grant = some { s with token := true } := by
  simp [applyMove, grantStep, h]

theorem applyMove_engine {s t : State} (hp : s.phase = .waiting) (hk : s.token = true) (h : step s = .next t) :
    applyMove s .engine = some t := by
  simp [applyMove, engineEnabled, hp, hk, h]

@[simp] theorem runMoves_nil (s : State) : runMoves [] s = some s := rfl

/-- A schedule's first move and the rest of it. -/
theorem runMoves_cons {m : Move} {ms : List Move} {s u : State} :
    runMoves (m :: ms) s = some u ↔ ∃ t, applyMove s m = some t ∧ runMoves ms t = some u := by
  rw [runMoves]
  cases applyMove s m <;> simp

/-- Running two schedules one after the other. -/
theorem runMoves_append {ms ms' : List Move} {s u : State} :
    runMoves (ms ++ ms') s = some u ↔ ∃ t, runMoves ms s = some t ∧ runMoves ms' t = some u := by
  induction ms generalizing s with
  | nil => simp
  | cons m ms ih =>
    simp only [List.cons_append, runMoves_cons, ih]
    constructor
    · rintro ⟨a, h1, b, h2, h3⟩; exact ⟨b, ⟨a, h1, h2⟩, h3⟩
    · rintro ⟨b, ⟨a, h1, h2⟩, h3⟩; exact ⟨a, h1, b, h2, h3⟩

/-! ### Counting moves -/

@[simp] theorem moveCount_nil (m : Move) : moveCount m [] = 0 := rfl

theorem moveCount_cons (m n : Move) (ms : List Move) :
    moveCount m (n :: ms) = moveCount m ms + if n = m then 1 else 0 := by
  simp [moveCount, List.countP_cons]

theorem moveCount_append (m : Move) (ms ms' : List Move) :
    moveCount m (ms ++ ms') = moveCount m ms + moveCount m ms' := by
  simp [moveCount]

end Sys2Proof.Machine
end

