-- ==== Sys2Proof/Laws/Loader.lean ====
section
/-! SUPPORT. What the loader's lookups answer. -/

namespace Sys2Proof.Machine

/-- Section `j` of an image, when there is one. -/
theorem Image.sections_getElem? (image : Image) (j : Nat) :
    image.sections[j]? = if j < image.shnum then some (image.header j) else none := by
  simp only [Image.sections, List.getElem?_map]
  by_cases h : j < image.shnum <;> simp [h]

/-- A section found is the first with its property. -/
theorem Image.find?_sections {image : Image} {holds : Nat → Bool} {x : Section}
    (h : image.sections.find? (fun h => holds h.type) = some x) :
    ∃ i, firstSection image holds i ∧ x = image.header i := by
  rw [List.find?_eq_some_iff_getElem] at h
  obtain ⟨h1, i, hi, h2, h3⟩ := h
  simp only [Image.sections, List.length_map, List.length_range] at hi
  simp only [Image.sections, List.getElem_map, List.getElem_range] at h2 h3
  exact ⟨i, ⟨hi, h2 ▸ h1, fun j hj => by simpa using h3 j hj⟩, h2.symm⟩

/-- The first section with a property is found. -/
theorem Image.find?_sections_of_first {image : Image} {holds : Nat → Bool} {i : Nat} (h : firstSection image holds i) :
    image.sections.find? (fun h => holds h.type) = some (image.header i) := by
  rw [List.find?_eq_some_iff_getElem]
  exact ⟨h.2.1, i, by simpa [Image.sections] using h.1, by simp [Image.sections],
    fun j hj => by simpa [Image.sections] using h.2.2 j hj⟩

/-- A byte of an image inside it. -/
theorem Image.getElem?_eq_byte {image : Image} {o : Nat} (h : o < image.length) : image[o]? = some (image.byte o) := by
  have hd : image.drop o = image[o] :: image.drop (o + 1) := List.drop_eq_getElem_cons h
  rw [List.getElem?_eq_getElem h, Image.byte, Image.num, hd, List.take_succ_cons, List.take_zero, leNat, leNat]
  simp

/-- A turn of the symbol lookup with entries left. -/
theorem Image.findSymbol_succ (image : Image) (tab str : Section) (name : List Byte) (n k : Nat) :
    image.findSymbol tab str name (n + 1) k =
      if image.length < tab.entryOffset k + 24 then .error .malformedImage
      else if globalFunction (image.byte (tab.entryOffset k + 4)) then
        match image.nameAt str (image.num (tab.entryOffset k) 4) with
        | none => .error .malformedImage
        | some found =>
          if found = name then .ok (some (BitVec.ofNat 64 (image.num (tab.entryOffset k + 8) 8)))
          else image.findSymbol tab str name n (k + 1)
      else image.findSymbol tab str name n (k + 1) := rfl

/-- The lookup goes on after entries that are passed over. -/
theorem Image.findSymbol_passedOver {image : Image} {tab str : Section} {name : List Byte} (m n k : Nat)
    (h : ∀ j, k ≤ j → j < k + m → entryPassedOver image tab str name j) :
    image.findSymbol tab str name (m + n) k = image.findSymbol tab str name n (k + m) := by
  induction m generalizing k with
  | zero => simp
  | succ m ih =>
    obtain ⟨hin, hname⟩ := h k (Nat.le_refl k) (by omega)
    rw [Nat.add_right_comm, findSymbol_succ, if_neg (Nat.not_lt.2 hin), ih (k + 1) fun j h1 h2 => h j (by omega) (by omega),
      show k + 1 + m = k + (m + 1) by omega]
    split
    · rename_i hg
      obtain ⟨other, ho, hne⟩ := hname hg
      simp only [ho, if_neg hne]
    · rfl

theorem untilZero_eq_none {bs : List Byte} : untilZero bs = none ↔ ∀ b ∈ bs, b ≠ 0 := by
  induction bs with
  | nil => simp [untilZero]
  | cons b bs ih =>
    rw [untilZero]
    by_cases hb : b = 0
    · simp [hb]
    · simp only [if_neg hb, Option.map_eq_none_iff, ih, List.forall_mem_cons]
      exact ⟨fun h => ⟨hb, h⟩, fun h => h.2⟩

/-- A name cannot be read exactly when no zero byte ends it inside the table and the image. -/
theorem Image.nameAt_eq_none {image : Image} {str : Section} {stName : Nat} :
    image.nameAt str stName = none ↔ unterminated image str stName := by
  rw [nameAt, untilZero_eq_none]
  constructor
  · intro h a h1 h2 h3
    refine h 0 (List.mem_iff_getElem?.2 ⟨a - (str.offset + stName), ?_⟩) rfl
    rw [List.getElem?_drop, List.getElem?_take, Nat.add_sub_cancel' h1, if_pos h2, h3]
  · intro h b hb h0
    obtain ⟨k, hk⟩ := List.mem_iff_getElem?.1 hb
    rw [List.getElem?_drop, List.getElem?_take] at hk
    split at hk
    · rename_i h2
      exact h _ (Nat.le_add_right _ _) h2 (h0 ▸ hk)
    · simp at hk

/-- What a successful load went through. -/
theorem load_ok {image : Image} {name : List Byte} {p : Process} (h : load image name = .ok p) :
    image.acceptable = true ∧ ∃ entry, image.entryPoint name = .ok (some entry) ∧
      ∃ first, image.sections.find? (fun h => h.type ≠ 0) = some first ∧
        p = { loadAddress := first.bias, entryPoint := entry, imageBytes := image } := by
  rw [load] at h
  split at h
  · rename_i ha
    refine ⟨ha, ?_⟩
    split at h
    · simp at h
    · simp at h
    · rename_i e he
      refine ⟨e, he, ?_⟩
      split at h
      · simp at h
      · rename_i f hf
        rw [Except.ok.injEq] at h
        exact ⟨f, hf, h.symm⟩
  · simp at h

/-- Where an entry point that was found was looked for. -/
theorem Image.entryPoint_some {image : Image} {name : List Byte} {entry : Word}
    (h : image.entryPoint name = .ok (some entry)) :
    ∃ i, firstSection image (· = 2) i ∧ (image.header i).link < image.shnum ∧
      image.findSymbol (image.header i) (image.header (image.header i).link) name ((image.header i).size / 24) 0 =
        .ok (some entry) := by
  rw [Image.entryPoint] at h
  split at h
  · simp at h
  · rename_i tab ht
    obtain ⟨i, h1, rfl⟩ := Image.find?_sections (holds := (· = 2)) ht
    rw [Image.sections_getElem?] at h
    split at h
    · simp at h
    · rename_i str hs
      split at hs
      · rename_i hl
        rw [Option.some.injEq] at hs
        subst hs
        exact ⟨i, h1, hl, h⟩
      · simp at hs

end Sys2Proof.Machine
end

