-- ==== Sys2Proof/Laws/PerInstr.lean ====
section
/-! SUPPORT. What holds of every instruction as syntax, one lemma per constructor. -/

namespace Sys2Proof.Laws.EncodedShape

/-- The encoding of a well-formed instruction is one opcode byte and exactly the operand bytes that byte calls for at its
width, and its length is the one rule R110 gives. -/
def Statement (i : Sys2Proof.Instr) : Prop :=
  ∀ w : Sys2Proof.Width, i.wf w = true →
    ∃ b bs, Sys2Proof.encode i = b :: bs ∧ bs.length = Sys2Proof.operandBytes w b ∧ i.length = bs.length + 1

theorem prefixW64 : Statement .prefixW64 := by
  intro w _
  exact ⟨_, _, rfl, by cases w <;> decide, rfl⟩

theorem push (reg : BitVec 3) : Statement (.push reg) := by
  intro w _
  exact ⟨_, _, rfl, by revert reg; cases w <;> decide, rfl⟩

theorem pop (reg : BitVec 3) : Statement (.pop reg) := by
  intro w _
  exact ⟨_, _, rfl, by revert reg; cases w <;> decide, rfl⟩

theorem movRmR (mod : BitVec 2) (src dst : BitVec 3) : Statement (.movRmR mod src dst) := by
  intro w _
  exact ⟨_, _, rfl, by cases w <;> simp [Sys2Proof.operandBytes], rfl⟩

theorem movRImm32 (reg : BitVec 3) (imm : BitVec 32) : Statement (.movRImm32 reg imm) := by
  intro w hw
  have : w = .w32 := by simpa [Sys2Proof.Instr.wf] using hw
  subst this
  refine ⟨_, _, rfl, ?_, by simp [Sys2Proof.Instr.length]⟩
  rw [Sys2Proof.leBytes_length]
  clear hw; revert reg; decide

theorem movRImm64 (reg : BitVec 3) (imm : BitVec 64) : Statement (.movRImm64 reg imm) := by
  intro w hw
  have : w = .w64 := by simpa [Sys2Proof.Instr.wf] using hw
  subst this
  refine ⟨_, _, rfl, ?_, by simp [Sys2Proof.Instr.length]⟩
  rw [Sys2Proof.leBytes_length]
  clear hw; revert reg; decide

theorem ret : Statement .ret := by
  intro w _
  exact ⟨_, _, rfl, by cases w <;> decide, rfl⟩

theorem illegal (byte : Sys2Proof.Byte) : Statement (.illegal byte) := by
  intro w h
  refine ⟨_, _, rfl, ?_, rfl⟩
  have h32 : ∀ b : Sys2Proof.Byte, Sys2Proof.illegalByte b = true → 0 = Sys2Proof.operandBytes .w32 b := by decide
  have h64 : ∀ b : Sys2Proof.Byte, Sys2Proof.illegalByte b = true → 0 = Sys2Proof.operandBytes .w64 b := by decide
  cases w
  · exact h32 byte h
  · exact h64 byte h

end Sys2Proof.Laws.EncodedShape
end

