-- ==== Sys2Proof/Laws/Reset.lean ====
section
/-! SUPPORT. Construction and start, field by field. -/

namespace Sys2Proof.Machine

/-- Every slot is zero after construction (D6). -/
@[simp] theorem construct_getReg (cfg : Config) (i : Slot) : (construct cfg).getReg i = 0 := by
  simp [construct, State.getReg, Vector.get_eq_getElem]

@[simp] theorem construct_cfg (cfg : Config) : (construct cfg).cfg = cfg := rfl
@[simp] theorem construct_mem (cfg : Config) : (construct cfg).mem = [] := rfl
@[simp] theorem construct_token (cfg : Config) : (construct cfg).token = false := rfl

/-- A Process that fits is started; the boundary check is last. -/
theorem start_of_fits {p : Process} {s : State} (h : p.fits s.cfg) :
    start p s = boundary (({ s with mem := startMemory p s.cfg s.mem }.setReg RSP s.sentinel).setReg IP p.entryPoint) :=
  if_pos h

/-- A Process that does not fit is a MemoryFault. -/
theorem start_of_not_fits {p : Process} {s : State} (h : ¬ p.fits s.cfg) :
    start p s = raise (.memoryFault p.loadAddress p.imageBytes.length) s :=
  if_neg h

/-- The memory a start leaves is canonical. -/
theorem startMemory_wf (p : Process) (cfg : Config) {m : Memory} (h : m.wf = true) : (startMemory p cfg m).wf = true :=
  Memory.writeBytes_wf _ _ (Memory.writeBytes_wf _ _ h)

/-- The memory a start leaves lists no address outside memory. -/
theorem startMemory_within {p : Process} {cfg : Config} {m : Memory} (hw : cfg.wf) (hf : p.fits cfg)
    (h : m.within cfg.memSize = true) : (startMemory p cfg m).within cfg.memSize = true :=
  Memory.writeBytes_within _ (Memory.writeBytes_within _ h hf) (by simp; have := hw.1; omega)

/-- The memory of the reset state is canonical. -/
theorem reset_mem_wf : State.reset.mem.wf = true := by decide

end Sys2Proof.Machine
end

