-- ==== Sys2Proof/Tests/Slice0.lean ====
section
/-! SUPPORT. Small tests from the spec's own vectors (spec/95_test_vectors.md), the ill-formed terms that `Instr.wf`
refuses, and for every obligation with hypotheses a state and operands that meet them. -/

namespace Sys2Proof.Tests

open Sys2Proof Sys2Proof.Machine

set_option Elab.async false

/-! ### WellFormed refuses ill-formed terms -/

/-- 0x50 is PUSH RAX, no illegal byte (R118), at either width. -/
theorem test_wf_refuses_illegal_of_a_defined_byte :
    (Instr.illegal 0x50).wf .w32 = false ∧ (Instr.illegal 0x50).wf .w64 = false := by decide

/-- A 4-byte immediate has no place after a prefix (R113). -/
theorem test_wf_refuses_imm32_at_width_64 : (Instr.movRImm32 0 0x2A).wf .w64 = false := by decide

/-- An 8-byte immediate has no place without one (R113). -/
theorem test_wf_refuses_imm64_at_width_32 : (Instr.movRImm64 0 0x2A).wf .w32 = false := by decide

theorem test_wf_accepts : (Instr.illegal 0x0F).wf .w32 = true ∧ (Instr.movRImm32 7 5).wf .w32 = true ∧
    (Instr.movRImm64 7 5).wf .w64 = true := by decide

/-! ### Decoding: words written out from the formats of R111 -/

/-- Format P, 01001000, and the two scans of vector V9: two prefixes are one width. -/
theorem test_decode_prefixW64 : decode .w32 [0b01001000] = .ok (.prefixW64, []) ∧
    decodeWhole [0b01001000, 0b01001000, 0b10111010, 1, 0, 0, 0, 0, 0, 0, 0x80] =
      .ok (2, .movRImm64 2 0x8000000000000001, []) := by decide

/-- Format O with op5 = 01010; vectors V1, V2. -/
theorem test_decode_push : decode .w32 [0b01010000] = .ok (.push 0, []) ∧
    decode .w32 [0b01010111] = .ok (.push 7, []) := by decide

/-- Format O with op5 = 01011; vector V3. -/
theorem test_decode_pop : decode .w32 [0b01011100, 0x90] = .ok (.pop 4, [0x90]) := by decide

/-- Format M: mod 11, src 100, dst 101; vector V4. The same bytes with mod 01. -/
theorem test_decode_movRmR : decode .w32 [0b10001001, 0b11100101] = .ok (.movRmR 0b11 4 5, []) ∧
    decode .w64 [0b10001001, 0b01100101] = .ok (.movRmR 0b01 4 5, []) := by decide

/-- Format OI32; vector V6 and a register and bytes that differ. -/
theorem test_decode_movRImm32 : decode .w32 [0b10111000, 0x2A, 0, 0, 0] = .ok (.movRImm32 0 0x2A, []) ∧
    decode .w32 [0b10111011, 0x78, 0x56, 0x34, 0x12] = .ok (.movRImm32 3 0x12345678, []) := by decide

/-- Format OI64; the bytes of vector V36. -/
theorem test_decode_movRImm64 : decode .w64 [0b10111000, 0x88, 0x77, 0x66, 0x55, 0x44, 0x33, 0x22, 0x11] =
    .ok (.movRImm64 0 0x1122334455667788, []) := by decide

/-- Format Z; vector V8. -/
theorem test_decode_ret : decodeWhole [0b01001000, 0b01001000, 0b01001000, 0b11000011] = .ok (3, .ret, []) := by decide

/-- The ends of every illegal range of R118. -/
theorem test_decode_illegal :
    ([0x00, 0x47, 0x49, 0x4F, 0x60, 0x88, 0x8A, 0xB7, 0xC0, 0xC2, 0xC4, 0xFF] : List Byte).all
      (fun b => decodeOpcode .w32 b 0 = .illegal b && decodeOpcode .w64 b 0 = .illegal b) = true := by decide

/-- The bytes next to them decode to instructions (R118). -/
theorem test_decode_edges :
    [decodeOpcode .w32 0x48 0, decodeOpcode .w32 0x50 0, decodeOpcode .w32 0x57 0, decodeOpcode .w32 0x58 0,
      decodeOpcode .w32 0x5F 0, decodeOpcode .w32 0xBF 9, decodeOpcode .w64 0xB8 9, decodeOpcode .w64 0xC3 0] =
    [.prefixW64, .push 0, .push 7, .pop 0, .pop 7, .movRImm32 7 9, .movRImm64 0 9, .ret] := by decide

/-- Bytes run out before the opcode and inside an immediate. -/
theorem test_decode_refuses_by_name : decode .w32 [] = .error .noOpcode ∧
    decode .w32 [0xBB, 0x78, 0x56, 0x34] = .error (.truncated 4 3) := by decide

/-- The rows of spec/opcode_table.json as the host numbers their bits. -/
theorem test_decodeTableWord : decodeTableWord 8 0x48 = some .prefixW64 ∧ decodeTableWord 8 0x5C = some (.pop 4) ∧
    decodeTableWord 16 0xE589 = some (.movRmR 3 4 5) ∧ decodeTableWord 40 0x2AB8 = some (.movRImm32 0 0x2A) ∧
    decodeTableWord 72 0x2AB8 = some (.movRImm64 0 0x2A) ∧ decodeTableWord 8 0x0F = some (.illegal 0x0F) := by decide

/-- The examples of R200 and V9 in the notation of R124, and a form of 0x89 that is not canonical. -/
theorem test_listing : listing 1 (.movRmR 3 4 5) = some "mov rbp, rsp" ∧
    listing 2 (.movRImm64 2 0x8000000000000001) = some "mov rdx, 0x8000000000000001" ∧
    listing 0 (.movRmR 1 7 5) = some "mov ebp, edi (non-canonical)" ∧ listing 0 (.illegal 0x0F) = none := by decide +kernel

/-- `mov rbp, rsp` is `48 89 E5` (R200). -/
theorem test_asm_bytes : (AsmLine.movRR 5 4).bytes = [0x48, 0x89, 0xE5] := by decide

/-! ### One step on a small state -/

/-- A raw state as the vectors use them: `N = 0x10000`, phase `Waiting`, a token granted, everything zero but the listed
slots and cells, and the code at the instruction pointer. -/
def raw (code : List Byte) (slots : List (Slot × Word)) (cells : Memory) : State :=
  let s := slots.foldl (fun s p => s.setReg p.1 p.2) (construct Config.reset)
  { s with mem := cells.writeBytes s.ip.toNat code, token := true }

/-- The state a step leaves. -/
def after (s : State) : State :=
  match step s with
  | .next t => t
  | .fault _ => s
  | .refused _ => s

/-- The cells of an 8-byte word in memory, zero bytes left out. -/
def cellsOf (a : Nat) (v : Nat) : Memory := Memory.writeBytes [] a (leBytes 8 v)

/-- V10: the store is little-endian. -/
theorem test_push_little_endian :
    let s := raw [0x50] [(IP, 0x1000), (RSP, 0xFFF8), (RAX, 0x1122334455667788)] []
    let t := after s
    t.getReg RSP = 0xFFF0 ∧ t.getReg IP = 0x1001 ∧ t.mem.readBytes 0xFFF0 8 = [0x88, 0x77, 0x66, 0x55, 0x44, 0x33, 0x22, 0x11] ∧ t.phase = .waiting := by decide

/-- V12: PUSH RSP stores the decremented value. -/
theorem test_push_rsp_decremented :
    let s := raw [0x54] [(IP, 0x1000), (RSP, 0xFFF8)] []
    let t := after s
    t.getReg RSP = 0xFFF0 ∧ t.getReg IP = 0x1001 ∧ t.mem.readBytes 0xFFF0 8 = [0xF0, 0xFF, 0, 0, 0, 0, 0, 0] ∧ t.phase = .waiting := by decide

/-- V24: POP RSP ends at the popped value plus 8, modulo 2^64. -/
theorem test_pop_rsp_adds_eight_and_wraps :
    let s := raw [0x5C] [(IP, 0x1000), (RSP, 0xFFF0)] (cellsOf 0xFFF0 0xFFFFFFFFFFFFFFFC)
    let t := after s
    t.getReg RSP = 0x4 ∧ t.getReg IP = 0x1001 ∧ t.phase = .waiting := by decide

/-- V26: a POP that reaches past the end of memory. -/
theorem test_pop_at_the_top :
    let s := raw [0x59] [(IP, 0x1000), (RSP, 0xFFF9), (RCX, 0xC1)] []
    let t := after s
    t.getReg RCX = 0xC1 ∧ t.getReg RSP = 0xFFF9 ∧ t.getReg IP = 0x1000 ∧ t.phase = .halted (.faulted (.memoryFault 0xFFF9 8)) := by decide

/-- V46 and V48: all 64 bits without a prefix, mod 01 ignored. -/
theorem test_movRmR_copies_64_bits :
    let s := raw [0x89, 0x58] [(IP, 0x1000), (RAX, 0x1), (RBX, 0xFEDCBA9876543210)] []
    let t := after s
    t.getReg RAX = 0xFEDCBA9876543210 ∧ t.getReg RBX = 0xFEDCBA9876543210 ∧ t.getReg IP = 0x1002 ∧ t.phase = .waiting := by decide

/-- V54: the ModRM byte is out of range. -/
theorem test_movRmR_past_the_end :
    let s := raw [0x89] [(IP, 0xFFFF), (RAX, 0x1), (RBX, 0x2)] []
    let t := after s
    t.getReg RAX = 0x1 ∧ t.getReg IP = 0xFFFF ∧ t.phase = .halted (.faulted (.memoryFault 0x10000 1)) := by decide

/-- V32: the high 32 bits are cleared. -/
theorem test_movRImm32_zero_extends :
    let s := raw [0xB8, 0x2A, 0x00, 0x00, 0x00] [(IP, 0x1000), (RAX, 0xFFFFFFFFFFFFFFFF)] []
    let t := after s
    t.getReg RAX = 0x2A ∧ t.getReg IP = 0x1005 ∧ t.phase = .waiting := by decide

/-- V44: a sequential advance onto the sentinel halts. -/
theorem test_movRImm32_onto_the_sentinel :
    let s := raw [0xB8, 0x07, 0x00, 0x00, 0x00] [(IP, 0xFFF3), (RAX, 0x9)] []
    let t := after s
    t.getReg RAX = 0x7 ∧ t.getReg IP = 0xFFF8 ∧ t.phase = .halted (.exited 7) := by decide

/-- V38: two prefixes are one width. -/
theorem test_movRImm64_two_prefixes :
    let s := raw [0x48, 0x48, 0xBA, 0x01, 0x00, 0x00, 0x00, 0x00, 0x00, 0x00, 0x80] [(IP, 0x1000)] []
    let t := after s
    t.getReg RDX = 0x8000000000000001 ∧ t.getReg IP = 0x100B ∧ t.phase = .waiting := by decide

/-- V42: the prefix advance stays, and the sentinel in a fault state is no exit. -/
theorem test_movRImm64_fault_keeps_the_prefix :
    let s := raw [0x48, 0xBB, 0x01, 0x02, 0x03, 0x04, 0x05, 0x06, 0x07] [(IP, 0xFFF7), (RBX, 0x7)] []
    let t := after s
    t.getReg RBX = 0x7 ∧ t.getReg IP = 0xFFF8 ∧ t.phase = .halted (.faulted (.memoryFault 0xFFF9 8)) := by decide

/-- V59: a prefixed RET to an odd target. -/
theorem test_ret_adds_nothing :
    let s := raw [0x48, 0xC3] [(IP, 0x1000), (RSP, 0xFFF0)] (cellsOf 0xFFF0 0x3001)
    let t := after s
    t.getReg IP = 0x3001 ∧ t.getReg RSP = 0xFFF8 ∧ t.phase = .waiting := by decide

/-- V58: the exit code is the accumulator's low EXIT_BITS bits, 32 of them here. -/
theorem test_ret_to_the_sentinel :
    let s := raw [0xC3] [(IP, 0x1000), (RSP, 0xFFF8), (RAX, 0x12A)] (cellsOf 0xFFF8 0xFFF8)
    let t := after s
    t.getReg IP = 0xFFF8 ∧ t.getReg RSP = 0x10000 ∧ t.phase = .halted (.exited 0x12A) := by decide

/-- V86: prefixes to the end of memory. -/
theorem test_prefix_run_past_the_end :
    let s := raw [0x48, 0x48] [(IP, 0xFFFE)] []
    let t := after s
    t.getReg IP = 0x10000 ∧ t.phase = .halted (.faulted (.memoryFault 0x10000 1)) := by decide

/-- V87: the scan does not compare with the sentinel; the opcode is the cell's first byte. -/
theorem test_prefix_passes_the_sentinel :
    let s := raw [0x48] [(IP, 0xFFF7), (RAX, 0x3)] (cellsOf 0xFFF8 0xFFF8)
    let t := after s
    t.getReg IP = 0xFFF8 ∧ t.phase = .halted (.faulted (.decodeFault 0xFFF8 0xF8)) := by decide

/-- V66: the fault's address is the illegal byte's. -/
theorem test_illegal_after_a_prefix :
    let s := raw [0x48, 0x0F] [(IP, 0x1000)] []
    let t := after s
    t.getReg IP = 0x1001 ∧ t.phase = .halted (.faulted (.decodeFault 0x1001 0x0F)) := by decide

/-- V69: 0x41 is no prefix of this core. -/
theorem test_illegal_rex_is_no_prefix :
    let s := raw [0x41, 0x50] [(IP, 0x1000)] []
    let t := after s
    t.getReg IP = 0x1000 ∧ t.phase = .halted (.faulted (.decodeFault 0x1000 0x41)) := by decide

/-! ### The loader, start and the host interface -/

/-- The image of vector L1. -/
def imageL1 : Image :=
  ([0x7F, 0x45, 0x4C, 0x46, 2, 1, 1, 0] ++ List.replicate 8 0 ++ [2, 0, 0x3E, 0, 1, 0, 0, 0, 0x40, 0x10] ++
    List.replicate 14 0 ++ [0x88, 0, 0, 0, 0, 0, 0, 0, 0, 0, 0, 0, 0x40, 0, 0, 0, 0, 0, 0x40, 0, 4, 0, 0, 0]) ++
  ([0x48, 0xB8, 0x2A, 0, 0, 0, 0, 0, 0, 0, 0xC3] ++ List.replicate 29 0 ++ [1, 0, 0, 0, 0x12, 0, 1, 0, 0x40, 0x10] ++
    List.replicate 6 0 ++ [0x0B] ++ List.replicate 8 0 ++ [0x6D, 0x61, 0x69, 0x6E] ++ List.replicate 3 0) ++
  (List.replicate 64 0) ++
  ([0, 0, 0, 0, 1, 0, 0, 0, 6, 0, 0, 0, 0, 0, 0, 0, 0x40, 0x10, 0, 0, 0, 0, 0, 0, 0x40, 0, 0, 0, 0, 0, 0, 0, 0x0B] ++
    List.replicate 15 0 ++ [0x10] ++ List.replicate 15 0) ++
  ([0, 0, 0, 0, 2] ++ List.replicate 19 0 ++ [0x50, 0, 0, 0, 0, 0, 0, 0, 0x30, 0, 0, 0, 0, 0, 0, 0, 3, 0, 0, 0, 1, 0, 0, 0, 8,
    0, 0, 0, 0, 0, 0, 0, 0x18, 0, 0, 0, 0, 0, 0, 0]) ++
  ([0, 0, 0, 0, 3] ++ List.replicate 19 0 ++ [0x80, 0, 0, 0, 0, 0, 0, 0, 6] ++ List.replicate 15 0 ++ [1] ++
    List.replicate 15 0)

/-- "main". -/
def nameMain : List Byte := [0x6D, 0x61, 0x69, 0x6E]

/-- Vector L1. -/
theorem test_load_L1 : load imageL1 nameMain =
    .ok { loadAddress := 0x1000, entryPoint := 0x1040, imageBytes := imageL1 } := by decide +kernel

/-- Vectors L3 and L7: the comparison is exact, and a file cut short is malformed. -/
theorem test_load_errors : load imageL1 [0x6D, 0x61, 0x69] = .error .entryNotFound ∧
    load (imageL1.take 0x187) nameMain = .error .malformedImage := by decide +kernel

/-- Vector L12: at `N = 0x1100` the Process does not fit. -/
theorem test_start_L12 :
    (resetWith ⟨0x1100, 32⟩ ⟨0x1000, 0x1040, imageL1⟩).phase =
      .halted (.faulted (.memoryFault 0x1000 0x188)) := by decide +kernel

/-- Program P1 of the spec: 2 tokens and exit code 42. -/
theorem test_program_P1 :
    (runCommands 2 (resetWith Config.reset ⟨0x1000, 0x1000, [0x48, 0xB8, 0x2A, 0, 0, 0, 0, 0, 0, 0, 0xC3]⟩)).phase = .halted (.exited 42) := by decide

/-- Registers by name in either column of R30, and a name that is neither. -/
theorem test_getRegisterByName : getRegisterByName State.reset "stack-pointer" = .value 0xFFF8 ∧
    getRegisterByName State.reset "RSP" = .value 0xFFF8 ∧ getRegisterByName State.reset "rip" = .refused := by decide

/-- The host's two questions about a row: the word placed where the step fetches runs as the first instruction. -/
theorem test_withFetchWord : (after (State.reset.withFetchWord 72 0x2AB8)).getReg RAX = 0x2A ∧
    (after (State.reset.withFetchWord 40 0x2AB9)).getReg RCX = 0x2A := by decide

/-! ### For every obligation with hypotheses, a state and operands that meet them -/

/-- PUSH RAX at 0x1000 with the stack pointer where reset leaves it. -/
def pushState : State := raw [0x50] [(IP, 0x1000), (RSP, 0xFFF8)] []

/-- RET at 0x1000 over the sentinel cell. -/
def retState : State := raw [0xC3] [(IP, 0x1000), (RSP, 0xFFF8)] (cellsOf 0xFFF8 0xFFF8)

/-- `48 0F` at 0x1000: a prefix and an illegal byte. -/
def illegalState : State := raw [0x48, 0x0F] [(IP, 0x1000)] []

/-- A machine that has exited. -/
def exitedState : State := { State.reset with phase := .halted (.exited 0) }

theorem test_witness_RegisterSetThenGet : quiescent State.reset = true ∧ 18 ≤ 18 ∧ (17 : Slot) ≠ 16 := by decide

/-- The last 8-byte access that fits and the first that does not. -/
theorem test_witness_MemRead : (0xFFF8 : Word).toNat + 8 ≤ State.reset.cfg.memSize ∧
    State.reset.cfg.memSize < (0xFFF9 : Word).toNat + 8 := by decide

theorem test_witness_MemWrite : State.reset.mem.wf = true ∧ (0xFFF8 : Word).toNat + 8 ≤ State.reset.cfg.memSize ∧
    State.reset.cfg.memSize < (0xFFFFFFFFFFFFFFFF : Word).toNat + 8 := by decide

theorem test_witness_CanonicalMemories : ∃ m m' : Memory, m ≠ [] ∧ m.wf = true ∧ m'.wf = true ∧ ∀ a, m.read a = m'.read a :=
  ⟨[(5, 1), (7, 2)], [(5, 1), (7, 2)], by decide, by decide, by decide, fun _ => rfl⟩

theorem test_witness_AStoreIsSeen : ∃ t, State.reset.mem.wf = true ∧
    memWrite State.reset 0xFFF0 8 0xC3C3C3C3C3C3C3C3 = .ok t ∧ 7 < 8 ∧ (0xFFF7 : Word).toNat = (0xFFF0 : Word).toNat + 7 :=
  ⟨_, by decide, rfl, by decide, by decide⟩

/-- The lowest and the highest stack pointer a PUSH may start from. -/
theorem test_witness_Push :
    let low := raw [0x50] [(IP, 0x1000), (RSP, 8)] []
    let high := raw [0x54] [(IP, 0x1000), (RSP, 0x10000)] []
    low.mem.wf = true ∧ 8 ≤ (low.getReg RSP).toNat ∧ (low.getReg RSP).toNat ≤ low.cfg.memSize ∧
    high.mem.wf = true ∧ 8 ≤ (high.getReg RSP).toNat ∧ (high.getReg RSP).toNat ≤ high.cfg.memSize := by decide

/-- The highest stack pointer a POP or RET may start from, with a destination that is the stack pointer and one that is
not. -/
theorem test_witness_PopAndRet : (retState.getReg RSP).toNat + 8 ≤ retState.cfg.memSize ∧ slotOf 4 = RSP ∧
    slotOf 0 ≠ RSP := by decide

theorem test_witness_NoInstructionReadsOrWritesFlags :
    (FLAGS = FLAGS ∨ (8 ≤ FLAGS.val ∧ FLAGS.val ≤ 15)) ∧ (R8 = FLAGS ∨ (8 ≤ R8.val ∧ R8.val ≤ 15)) ∧
    (R15 = FLAGS ∨ (8 ≤ R15.val ∧ R15.val ≤ 15)) := by decide

/-- A next state with no fault for every instruction but the illegal byte, which has none. -/
theorem test_witness_EachInstructionAdvances :
    ∀ i ∈ [Instr.prefixW64, .push 1, .pop 4, .movRmR 3 4 5, .movRImm32 0 42, .movRImm64 0 42, .ret],
      ∃ t, exec i (consume retState) = .next t ∧ t.safe := by
  intro i hi
  simp only [List.mem_cons, List.not_mem_nil, or_false] at hi
  rcases hi with rfl | rfl | rfl | rfl | rfl | rfl | rfl
  all_goals exact ⟨_, rfl, fun f h => Phase.noConfusion h⟩

/-- The stack pointer at both ends of PUSH's range, with one register, with two, and with the stack pointer popped. -/
theorem test_witness_PushThenPop : pushState.mem.wf = true ∧ 8 ≤ (pushState.getReg RSP).toNat ∧
    (pushState.getReg RSP).toNat ≤ pushState.cfg.memSize ∧ slotOf 3 ≠ RSP ∧ slotOf 4 = RSP := by decide

theorem test_witness_FaultEntry : ∀ h, pushState.phase ≠ .halted h := fun _ h => Phase.noConfusion h

/-- The first stack pointer below and the first above PUSH's range, and the first above POP's and RET's. -/
theorem test_witness_StackAccessOutside :
    let low := raw [0x50] [(RSP, 7)] []
    let high := raw [0x50] [(RSP, 0x10001)] []
    let top := raw [0x58] [(RSP, 0xFFF9)] []
    low.cfg.wf ∧ (low.getReg RSP).toNat < 8 ∧ high.cfg.memSize < (high.getReg RSP).toNat ∧
    top.cfg.memSize < (top.getReg RSP).toNat + 8 := by decide

/-- A fault of each instruction that has one. -/
theorem test_witness_EachInstructionTakesItsOwnFault :
    let s := consume (raw [] [(RSP, 0xFFFFFFFFFFFFFFFC)] [])
    s.phase = .executing .w32 ∧ ∀ i ∈ [Instr.push 0, .pop 0, .ret, .illegal 0x0F],
      ∃ t f, exec i s = .next t ∧ t.phase = .halted (.faulted f) := by
  refine ⟨rfl, fun i hi => ?_⟩
  simp only [List.mem_cons, List.not_mem_nil, or_false] at hi
  rcases hi with rfl | rfl | rfl | rfl
  all_goals exact ⟨_, _, rfl, rfl⟩

/-- No prefix and one prefix. -/
theorem test_witness_DecodingAnEncoding : (Instr.movRImm32 7 0xFFFFFFFF).wf (widthAfter 0) = true ∧
    (Instr.movRImm64 7 1).wf (widthAfter 1) = true ∧ Instr.movRImm32 7 0xFFFFFFFF ≠ .prefixW64 := by decide

/-- For both directions of the round trip and for the parts of an instruction. -/
theorem test_witness_DecodedBytes : decodeWhole [0x48, 0x89, 0xE5, 0x90] = .ok (1, .movRmR 3 4 5, [0x90]) ∧
    decodeWhole [0xB8, 1, 0, 0, 0] = .ok (0, .movRImm32 0 1, []) ∧ decodeWhole [0x0F] = .ok (0, .illegal 0x0F, []) := by decide

/-- The other instructions among the parts' clauses. -/
theorem test_witness_InstructionParts : decodeWhole [0x57] = .ok (0, .push 7, []) ∧ decodeWhole [0x48, 0x58] = .ok (1, .pop 0, []) ∧
    decodeWhole [0x48, 0xC3] = .ok (1, .ret, []) ∧
    decodeWhole [0x48, 0xB8, 1, 0, 0, 0, 0, 0, 0, 0x80] = .ok (1, .movRImm64 0 0x8000000000000001, []) := by decide

/-- An instruction and a prefix at the instruction pointer. -/
theorem test_witness_StepRunsTheDecodedInstruction :
    pushState.cfg.wf ∧ pushState.phase = .waiting ∧ pushState.token = true ∧
    pushState.ip.toNat + (Instr.push 0).length ≤ pushState.cfg.memSize ∧
    decode .w32 (pushState.mem.readBytes pushState.ip.toNat (Instr.push 0).length) = .ok (.push 0, []) ∧
    (∃ t, exec (.push 0) (consume pushState) = .next t) ∧
    decode .w32 (illegalState.mem.readBytes illegalState.ip.toNat Instr.prefixW64.length) = .ok (.prefixW64, []) ∧
    (∃ t, exec .prefixW64 (consume illegalState) = .next t) :=
  ⟨by decide, rfl, rfl, by decide, by decide, ⟨_, rfl⟩, by decide, ⟨_, rfl⟩⟩

theorem test_witness_OneTokenRunsOneWholeInstruction :
    illegalState.cfg.wf ∧ illegalState.phase = .waiting ∧ illegalState.token = true ∧
    illegalState.ip.toNat + 2 ≤ illegalState.cfg.memSize ∧
    decodeWhole (illegalState.mem.readBytes illegalState.ip.toNat 2) = .ok (1, .illegal 0x0F, []) ∧
    ∃ t, exec (.illegal 0x0F) (afterPrefixes illegalState 1) = .next t :=
  ⟨by decide, rfl, rfl, by decide, by decide, ⟨_, rfl⟩⟩

/-- One prefix stands before the illegal byte. -/
theorem test_prefixesAtIp_one : prefixesAtIp illegalState 1 := by
  intro k hk
  have h : k = 0 := by omega
  subst h
  decide

theorem test_witness_IllegalOpcode : illegalState.cfg.wf ∧ prefixesAtIp illegalState 1 ∧
    (0x1001 : Word).toNat = illegalState.ip.toNat + 1 ∧ (0x1001 : Word).toNat < illegalState.cfg.memSize ∧
    illegalState.mem.read 0x1001 = 0x0F ∧ illegalByte 0x0F = true :=
  ⟨by decide, test_prefixesAtIp_one, by decide, by decide, by decide, by decide⟩

/-- An instruction pointer at `N`; and an immediate of 4 bytes with 3 left (V40). -/
theorem test_witness_FetchOutside :
    let ends := raw [] [(IP, 0x10000)] []
    let short := raw [0xBB, 1, 2, 3] [(IP, 0xFFFC)] []
    ends.cfg.wf ∧ ends.phase = .waiting ∧ ends.token = true ∧ prefixesAtIp ends 0 ∧ ends.cfg.memSize ≤ ends.ip.toNat ∧
    prefixesAtIp short 0 ∧ short.ip.toNat < short.cfg.memSize ∧
    4 = operandBytes (widthAfter 0) (short.mem.read short.ip.toNat) ∧ short.cfg.memSize < short.ip.toNat + 1 + 4 :=
  ⟨by decide, rfl, rfl, fun _ h => absurd h (Nat.not_lt_zero _), by decide, fun _ h => absurd h (Nat.not_lt_zero _),
    by decide, by decide, by decide⟩

theorem test_witness_AFaultLeavesOnlyThePrefixes : (after illegalState).phase = .halted (.faulted (.decodeFault 0x1001 0x0F)) ∧
    illegalState.cfg.wf ∧ illegalState.phase = .waiting ∧ illegalState.token = true := by decide

/-- One activation that ends at the sentinel and one that does not. -/
theorem test_witness_BoundaryCheck : (after retState).phase = .halted (.exited 0) ∧ (after pushState).phase = .waiting ∧
    (after retState).ip = BitVec.ofNat 64 (retState.cfg.memSize - 8) ∧
    (after pushState).ip ≠ BitVec.ofNat 64 (pushState.cfg.memSize - 8) := by decide

/-- The end of an activation in a phase under way, at the sentinel and elsewhere, and of a halted state. -/
theorem test_witness_Finish : (consume pushState).phase = .executing .w32 ∧
    (consume pushState).ip ≠ BitVec.ofNat 64 (pushState.cfg.memSize - 8) ∧
    (consume (raw [] [(IP, 0xFFF8)] [])).ip = BitVec.ofNat 64 (0x10000 - 8) ∧
    exitedState.phase = .halted (.exited 0) := by decide

/-- The phases and tokens of the clauses about the engine's move. -/
theorem test_witness_EngineMoves : pushState.phase = .waiting ∧ pushState.token = true ∧
    State.reset.phase = .waiting ∧ State.reset.token = false ∧ exitedState.phase ≠ .waiting := by decide

theorem test_witness_AStepEndsAtABoundary : quiescent pushState = true ∧ (after pushState) ≠ pushState := by decide

/-- The invariant holds of the state before vector V10's step. -/
theorem test_witness_StepKeepsTheInvariant : pushState.Inv ∧ ∃ t, step pushState = .next t :=
  ⟨⟨by decide, by decide, by decide, by decide, by decide, fun _ h => Phase.noConfusion h, fun _ h => Phase.noConfusion h⟩,
    ⟨_, rfl⟩⟩

theorem test_witness_StartAndGrant : (⟨8, 64⟩ : Config).wf ∧ (⟨2 ^ 64 - 1, 1⟩ : Config).wf ∧
    grantStep State.reset = .granted { State.reset with token := true } := by decide

/-- A Process that fits exactly and covers the sentinel cell, with the entry point at the sentinel and elsewhere. -/
theorem test_witness_ResetLeaves : let p : Process := ⟨8, 8, [1, 2, 3, 4, 5, 6, 7, 8]⟩
    (⟨16, 8⟩ : Config).wf ∧ p.loadAddress.toNat + p.imageBytes.length ≤ 16 ∧
    p.entryPoint = BitVec.ofNat 64 (16 - 8) ∧ (0 : Word) ≠ BitVec.ofNat 64 (16 - 8) := by decide

/-- One byte too many. -/
theorem test_witness_ProcessThatDoesNotFit : let p : Process := ⟨9, 8, [1, 2, 3, 4, 5, 6, 7, 8]⟩
    (⟨16, 8⟩ : Config).memSize < p.loadAddress.toNat + p.imageBytes.length := by decide

theorem test_witness_Grant : State.reset.token = false ∧ pushState.token = true := by decide

theorem test_witness_Halted : exitedState.phase = .halted (.exited 0) ∧
    runMoves [.grant] exitedState = some { exitedState with token := true } ∧ moveCount .grant [.grant] = 1 ∧
    runMoves [] { exitedState with token := true } = some { exitedState with token := true } := by decide

/-- A schedule of two moves that meets no fault. -/
theorem test_witness_ASafeRun : safeRun ([.engine] ++ [.grant]) pushState :=
  ⟨_, rfl, fun _ h => Phase.noConfusion h⟩

theorem test_witness_EachStepCommand : let s := { pushState with token := false }
    s.token = false ∧ quiescent s = true ∧ (runCommands 1 s).phase = .waiting := by decide

theorem test_witness_GrantsAndActivations : ∃ t, runMoves [.engine, .grant] pushState = some t := ⟨_, rfl⟩

/-- Two schedules with one activation each, the token granted by the one and found by the other. -/
theorem test_witness_TheDriver : let s := { pushState with token := false }
    s.engineView = pushState.engineView ∧ (∃ t, runMoves [.grant, .engine] s = some t) ∧
    (∃ t, runMoves [.engine, .grant] pushState = some t) ∧
    moveCount .engine [.grant, .engine] = moveCount .engine [.engine, .grant] :=
  ⟨rfl, ⟨_, rfl⟩, ⟨_, rfl⟩, rfl⟩

/-- The last register and the first index that is none; the longest range and one byte more; an activation under way. -/
theorem test_witness_Queries : quiescent State.reset = true ∧ 17 < 18 ∧
    (0xFFF8 : Word).toNat + (8 : Word).toNat ≤ State.reset.cfg.memSize ∧
    State.reset.cfg.memSize < (0xFFF8 : Word).toNat + (9 : Word).toNat ∧ (consume pushState).phase = .executing .w32 := by decide

/-- Vector L1: its symbol table is section 2, its string table section 3, and entry 1 matches. -/
theorem test_witness_AnImageWithAMatch : imageL1.acceptable = true ∧ firstSection imageL1 (· = 2) 2 ∧
    (imageL1.header 2).link = 3 ∧ 3 < imageL1.shnum ∧ 1 < (imageL1.header 2).size / 24 ∧
    (imageL1.header 2).entryOffset 1 + 24 ≤ imageL1.length ∧
    entryMatches imageL1 (imageL1.header 2) (imageL1.header 3) nameMain 1 ∧
    globalFunction (imageL1.byte ((imageL1.header 2).entryOffset 0 + 4)) ≠ true := by
  unfold firstSection entryMatches
  decide +kernel

/-- Each way a header is refused: cut short, wrong magic, class, byte order, header size, and a table past the end. -/
theorem test_witness_ABadHeader : (imageL1.take 63).length < 64 ∧
    (imageL1.set 0 0x7E).take 4 ≠ [0x7F, 0x45, 0x4C, 0x46] ∧ (imageL1.set 4 1)[4]? ≠ some 2 ∧
    (imageL1.set 5 2)[5]? ≠ some 1 ∧ 0 < Image.shnum (imageL1.set 0x3A 0x28) ∧ Image.shentsize (imageL1.set 0x3A 0x28) ≠ 64 ∧
    (imageL1.take 0x187).length < Image.shoff (imageL1.take 0x187) + 64 * Image.shnum (imageL1.take 0x187) := by
  decide +kernel

/-- With no section headers at all there is no symbol table (L6). -/
theorem test_witness_NoSymbolTable : Image.acceptable (imageL1.set 0x3C 0) = true ∧ Image.shnum (imageL1.set 0x3C 0) = 0 := by
  decide +kernel

/-- Vector L1 with an empty symbol table: its size is set to zero. -/
def imageNoEntry : Image := imageL1.set 0x128 0

/-- Vector L7: the symbol table names section 9 of 4 as its string table. -/
def imageBadLink : Image := imageL1.set 0x130 9

/-- The symbol table moved to 0x180, 8 bytes before the end of the file. -/
def imageBadEntry : Image := (imageL1.set 0x120 0x80).set 0x121 1

/-- Vector L7: the terminator of "main", the table's last byte, is 0x21. -/
def imageBadName : Image := imageL1.set 0x85 0x21

/-- An entry that is no global function, inside the image, is passed over. -/
theorem test_entryPassedOver_of_other_type {image : Image} {tab str : Section} {name : List Byte} {k : Nat}
    (h : tab.entryOffset k + 24 ≤ image.length ∧ globalFunction (image.byte (tab.entryOffset k + 4)) ≠ true) :
    entryPassedOver image tab str name k :=
  ⟨h.1, fun hg => absurd hg h.2⟩

/-- An entry with another name is passed over: vector L3's "mai" is not "main". -/
theorem test_entryPassedOver_of_other_name {image : Image} {tab str : Section} {name : List Byte} {k : Nat}
    (h : tab.entryOffset k + 24 ≤ image.length ∧ image.nameAt str (image.num (tab.entryOffset k) 4) = some nameMain ∧
      nameMain ≠ name) :
    entryPassedOver image tab str name k :=
  ⟨h.1, fun _ => ⟨nameMain, h.2⟩⟩

/-- Both entries of vector L1's table are passed over in the lookup of "mai". -/
theorem test_witness_AnImageWithNoMatch (k : Nat) (hk : k < 2) :
    entryPassedOver imageL1 (imageL1.header 2) (imageL1.header 3) [0x6D, 0x61, 0x69] k := by
  obtain rfl | rfl : k = 0 ∨ k = 1 := by omega
  · exact test_entryPassedOver_of_other_type (by decide +kernel)
  · exact test_entryPassedOver_of_other_name (by decide +kernel)

theorem test_witness_AnEmptySymbolTable : imageNoEntry.acceptable = true ∧ firstSection imageNoEntry (· = 2) 2 ∧
    (imageNoEntry.header 2).link < imageNoEntry.shnum ∧ (imageNoEntry.header 2).size / 24 = 0 := by
  unfold firstSection
  decide +kernel

/-- No section at all, so no entry that matches. -/
theorem test_witness_NoEntryMatches (i k : Nat) (h : firstSection (imageL1.take 0) (· = 2) i) :
    ¬ entryMatches (imageL1.take 0) (Image.header (imageL1.take 0) i) (Image.header (imageL1.take 0) i) nameMain k :=
  absurd h.1 (Nat.not_lt_zero i)

theorem test_witness_LinkPastTheSections : imageBadLink.acceptable = true ∧ firstSection imageBadLink (· = 2) 2 ∧
    imageBadLink.shnum ≤ (imageBadLink.header 2).link := by
  unfold firstSection
  decide +kernel

theorem test_witness_EntryPastTheImage : imageBadEntry.acceptable = true ∧ firstSection imageBadEntry (· = 2) 2 ∧
    (imageBadEntry.header 2).link < imageBadEntry.shnum ∧ 0 < (imageBadEntry.header 2).size / 24 ∧
    imageBadEntry.length < (imageBadEntry.header 2).entryOffset 0 + 24 := by
  unfold firstSection
  decide +kernel

/-- Entry 0 is passed over and entry 1 is a global function whose name cannot be read. -/
theorem test_witness_UnterminatedName :
    (imageBadName.acceptable = true ∧ firstSection imageBadName (· = 2) 2 ∧ (imageBadName.header 2).link = 3 ∧
      3 < imageBadName.shnum ∧ 1 < (imageBadName.header 2).size / 24 ∧
      (imageBadName.header 2).entryOffset 1 + 24 ≤ imageBadName.length ∧
      globalFunction (imageBadName.byte ((imageBadName.header 2).entryOffset 1 + 4)) = true) ∧
    entryPassedOver imageBadName (imageBadName.header 2) (imageBadName.header 3) nameMain 0 ∧
    unterminated imageBadName (imageBadName.header 3) (imageBadName.num ((imageBadName.header 2).entryOffset 1) 4) := by
  refine ⟨?_, test_entryPassedOver_of_other_type (by decide +kernel), Image.nameAt_eq_none.1 (by decide +kernel)⟩
  unfold firstSection
  decide +kernel

/-- "rip" stands in neither column of R30; the other clauses' phases are those of test_witness_Queries. -/
theorem test_witness_RegisterNames : quiescent State.reset = true ∧ "rip" ∉ slotNames.map Prod.fst := by decide +kernel

end Sys2Proof.Tests
end

section
/-! Noninterference of the slots no instruction can name: FLAGS and R8 to R15 (R13, R34). A meaning that commutes with a
write of a slot neither reads nor writes it, so each meaning is shown to commute with such a write, and the frame follows. -/

namespace Sys2Proof.Machine

/-- A slot no operand of an instruction can be: not the instruction pointer, and selected by no 3-bit register field. -/
def OutOfReach (j : Slot) : Prop := j ≠ IP ∧ ∀ r, j ≠ slotOf r

theorem outOfReach_of_flags_or_high {j : Slot} (h : j = FLAGS ∨ (8 ≤ j.val ∧ j.val ≤ 15)) : OutOfReach j := by
  rcases h with rfl | ⟨h8, h15⟩
  · exact ⟨by decide, fun r => (slotOf_ne_flags r).symm⟩
  · refine ⟨?_, fun r hr => ?_⟩
    · rintro rfl
      exact absurd h15 (by decide)
    · have := slotOf_lt r
      rw [← hr] at this
      omega

theorem OutOfReach.ne_rsp {j : Slot} (hj : OutOfReach j) : j ≠ RSP := hj.2 4

/-- Writing back the value a slot holds changes nothing. -/
theorem setReg_getReg_self (s : State) (j : Slot) : s.setReg j (s.getReg j) = s := by
  refine State.ext_slots rfl (fun i => ?_) rfl rfl rfl
  rw [getReg_setReg]
  split
  case isTrue h => rw [h]
  case isFalse => rfl

/-! ### A write of a slot out of reach passes every operation -/

section
variable {j : Slot} (hj : OutOfReach j) (s : State) (v : Word)
include hj

theorem getReg_slotOf_setReg (r : BitVec 3) : (s.setReg j v).getReg (slotOf r) = s.getReg (slotOf r) :=
  getReg_setReg_ne s v (hj.2 r).symm

theorem advance_setReg (n : Nat) : (s.setReg j v).advance n = (s.advance n).setReg j v := by
  rw [State.advance, setReg_ip_ne s v hj.1, setReg_comm s _ _ hj.1, State.advance]

theorem pushAddress_setReg : pushAddress (s.setReg j v) = pushAddress s := by
  rw [pushAddress, getReg_setReg_ne s v hj.ne_rsp.symm, pushAddress]

theorem popAddress_setReg : popAddress (s.setReg j v) = popAddress s :=
  getReg_setReg_ne s v hj.ne_rsp.symm

theorem pushValue_setReg (r : BitVec 3) : pushValue r (s.setReg j v) = pushValue r s := by
  rw [pushValue, pushAddress_setReg hj, getReg_slotOf_setReg hj, pushValue]

theorem popInto_setReg (r : BitVec 3) (x : Word) : popInto r x (s.setReg j v) = (popInto r x s).setReg j v := by
  rw [popInto, setReg_comm s v x (hj.2 r), getReg_setReg_ne _ v hj.ne_rsp.symm, setReg_comm _ v _ hj.ne_rsp, popInto]

theorem execPush_setReg (r : BitVec 3) :
    ∃ t, execPush r s = .next t ∧ execPush r (s.setReg j v) = .next (t.setReg j v) := by
  have ha := pushAddress_setReg hj s v
  by_cases hi : s.inRange (pushAddress s) 8
  · refine ⟨_, execPush_of_inRange r hi, ?_⟩
    rw [execPush_of_inRange r (by rwa [ha]), ha, pushValue_setReg hj, ← advance_setReg hj,
      setReg_comm _ _ v hj.ne_rsp.symm]
    rfl
  · refine ⟨_, execPush_of_not_inRange r hi, ?_⟩
    rw [execPush_of_not_inRange r (by rwa [ha]), ha]
    rfl

theorem execPop_setReg (r : BitVec 3) :
    ∃ t, execPop r s = .next t ∧ execPop r (s.setReg j v) = .next (t.setReg j v) := by
  have ha := popAddress_setReg hj s v
  by_cases hi : s.inRange (popAddress s) 8
  · refine ⟨_, execPop_of_inRange r hi, ?_⟩
    rw [execPop_of_inRange r (by rwa [ha]), ha, popInto_setReg hj, advance_setReg hj, setReg_mem]
  · refine ⟨_, execPop_of_not_inRange r hi, ?_⟩
    rw [execPop_of_not_inRange r (by rwa [ha]), ha]
    rfl

theorem execRet_setReg : ∃ t, execRet s = .next t ∧ execRet (s.setReg j v) = .next (t.setReg j v) := by
  have ha := popAddress_setReg hj s v
  by_cases hi : s.inRange (popAddress s) 8
  · refine ⟨_, execRet_of_inRange hi, ?_⟩
    rw [execRet_of_inRange (by rwa [ha]), ha, setReg_comm _ v _ hj.ne_rsp, setReg_comm _ v _ hj.1, setReg_mem]
  · refine ⟨_, execRet_of_not_inRange hi, ?_⟩
    rw [execRet_of_not_inRange (by rwa [ha]), ha]
    rfl

/-- The two writes of a move: its destination and the instruction pointer. -/
theorem setReg_slotOf_advance_setReg (r : BitVec 3) (x : Word) (n : Nat) :
    ((s.setReg j v).setReg (slotOf r) x).advance n = ((s.setReg (slotOf r) x).advance n).setReg j v := by
  rw [setReg_comm s v x (hj.2 r), advance_setReg hj]

/-- Every instruction commutes with a write of a slot out of reach. -/
theorem exec_setReg (i : Instr) : ∃ t, exec i s = .next t ∧ exec i (s.setReg j v) = .next (t.setReg j v) := by
  cases i with
  | push r => exact execPush_setReg hj s v r
  | pop r => exact execPop_setReg hj s v r
  | ret => exact execRet_setReg hj s v
  | prefixW64 =>
    refine ⟨_, rfl, ?_⟩
    rw [exec, execPrefixW64, advance_setReg hj]
    rfl
  | movRmR m a b =>
    refine ⟨_, rfl, ?_⟩
    rw [exec, execMovRmR, getReg_slotOf_setReg hj, setReg_slotOf_advance_setReg hj]
  | movRImm32 r imm =>
    refine ⟨_, rfl, ?_⟩
    rw [exec, execMovRImm32, setReg_slotOf_advance_setReg hj]
  | movRImm64 r imm =>
    refine ⟨_, rfl, ?_⟩
    rw [exec, execMovRImm64, setReg_slotOf_advance_setReg hj]
  | illegal b =>
    refine ⟨_, rfl, ?_⟩
    rw [exec, execIllegal, setReg_ip_ne s v hj.1]
    rfl

end

/-- No instruction changes a slot out of reach: it commutes with writing back the value the slot holds. -/
theorem exec_getReg_of_outOfReach {i : Instr} {s t : State} {j : Slot} (hj : OutOfReach j) (h : exec i s = .next t) :
    t.getReg j = s.getReg j := by
  obtain ⟨u, hu, hw⟩ := exec_setReg hj s (s.getReg j) i
  rw [setReg_getReg_self, h, Host.Outcome.next.injEq] at hw
  rw [hw, getReg_setReg_same]

/-- Settles O14: every instruction commutes with a write of such a slot, which gives both halves. -/
theorem noInstructionReadsOrWritesFlagsOrHighRegisters : Obligations.NoInstructionReadsOrWritesFlagsOrHighRegisters := by
  unfold Obligations.NoInstructionReadsOrWritesFlagsOrHighRegisters
  intro i s j v h
  have hj := outOfReach_of_flags_or_high h
  obtain ⟨t, ht, hv⟩ := exec_setReg hj s v i
  exact ⟨t, ht, exec_getReg_of_outOfReach hj ht, hv⟩

end Sys2Proof.Machine
end

section
/-! The invariant (R43, R155, R331, R332, R340). Inside an activation only its clauses about the parameters and memory hold;
every instruction keeps those, and each way an activation ends restores the rest. -/

namespace Sys2Proof.Machine

/-! ### The part of the invariant that holds inside an activation -/

/-- The clauses of `State.Inv` about the parameters and memory, which do not mention the phase. -/
structure State.StorageInv (s : State) : Prop where
  config : s.cfg.wf
  canonical : s.mem.wf = true
  bounded : s.mem.within s.cfg.memSize = true

theorem State.Inv.storageInv {s : State} (h : s.Inv) : s.StorageInv := ⟨h.config, h.canonical, h.bounded⟩

theorem State.StorageInv.of_eq {s t : State} (h : s.StorageInv) (hc : t.cfg = s.cfg) (hm : t.mem = s.mem) :
    t.StorageInv :=
  ⟨hc ▸ h.config, hm ▸ h.canonical, hc ▸ hm ▸ h.bounded⟩

/-- A store keeps memory canonical and inside its bounds. -/
theorem State.StorageInv.memWrite {s t : State} {a : Word} {n v : Nat} (h : s.StorageInv)
    (hw : memWrite s a n v = .ok t) : t.StorageInv where
  config := by
    obtain ⟨-, rfl⟩ := memWrite_ok_iff.1 hw
    exact h.config
  canonical := memWrite_wf hw h.canonical
  bounded := memWrite_within hw h.bounded

/-! ### The ways an activation ends -/

/-- The boundary check makes the phase agree with the instruction pointer. -/
theorem State.StorageInv.boundary_inv {s : State} (h : s.StorageInv) : (boundary s).Inv := by
  obtain ⟨hc, hm, hb⟩ := h
  have hp := boundary_phase s
  by_cases hs : s.ip = s.sentinel
  · rw [if_pos hs] at hp
    refine ⟨hc, hm, hb, by simp [quiescent, hp], by simp [hp], fun code hcode => ?_, by simp [hp]⟩
    rw [hp] at hcode
    cases hcode
    exact ⟨hs, rfl⟩
  · rw [if_neg hs] at hp
    exact ⟨hc, hm, hb, by simp [quiescent, hp], fun _ => hs, by simp [hp], by simp [hp]⟩

theorem EngineFault.truthful_raise {f g : EngineFault} {s : State} : f.truthful (raise g s) ↔ f.truthful s := by
  cases f <;> exact Iff.rfl

/-- Taking a fault whose record is true ends an activation well. -/
theorem State.StorageInv.raise_inv {s : State} {f : EngineFault} (h : s.StorageInv) (hf : f.truthful s) :
    (raise f s).Inv where
  config := h.config
  canonical := h.canonical
  bounded := h.bounded
  atBoundary := rfl
  notAtSentinel hw := by simp at hw
  exitIsNormal code hc := by simp at hc
  faultIsTruthful g hg := by
    rw [raise_phase] at hg
    cases hg
    exact EngineFault.truthful_raise.2 hf

/-! ### The faults an activation takes are truthful -/

theorem truthful_of_not_inRange {s : State} {a : Word} {n : Nat} (h : ¬ s.inRange a n) :
    (EngineFault.memoryFault a n).truthful s :=
  h

/-- With no byte left at the instruction pointer a fetch there is out of range. -/
theorem not_inRange_ip_of_bytesLeft_eq_zero {s : State} (h : s.bytesLeft = 0) : ¬ s.inRange s.ip 1 := by
  simp only [State.bytesLeft, State.inRange] at *
  omega

theorem truthful_of_fetchInstr_error {s : State} {f : EngineFault} (h : fetchInstr s = .error f) : f.truthful s := by
  rcases fetchInstr_cases s with ⟨hr, e⟩ | ⟨-, hr, e⟩ | ⟨-, -, e⟩
  · rw [e, Except.error.injEq] at h
    exact h ▸ truthful_of_not_inRange hr
  · rw [e, Except.error.injEq] at h
    exact h ▸ truthful_of_not_inRange hr
  · rw [e] at h
    cases h

theorem truthful_of_fetchInstr_illegal {s : State} {b : Byte} (h : fetchInstr s = .ok (.illegal b)) :
    (EngineFault.decodeFault s.ip b).truthful s := by
  rcases fetchInstr_cases s with ⟨-, e⟩ | ⟨-, -, e⟩ | ⟨hr, -, e⟩
  · rw [e] at h
    cases h
  · rw [e] at h
    cases h
  · rw [e, Except.ok.injEq] at h
    obtain ⟨rfl, hb⟩ := decodeOpcode_eq_illegal h
    exact ⟨rfl, hr, rfl, hb⟩

/-! ### Instructions -/

/-- A fetched instruction other than `prefixW64` takes a truthful fault, or completes with the phase and
`State.StorageInv` kept. -/
theorem exec_fault_or_completes {i : Instr} {s t : State} (hi : fetchInstr s = .ok i) (hp : i ≠ .prefixW64)
    (h : exec i s = .next t) (hs : s.StorageInv) :
    (∃ f, f.truthful s ∧ t = raise f s) ∨ (t.phase = s.phase ∧ t.StorageInv) := by
  suffices key : ∃ u, exec i s = .next u ∧
      ((∃ f, f.truthful s ∧ u = raise f s) ∨ (u.phase = s.phase ∧ u.StorageInv)) by
    obtain ⟨u, hu, hres⟩ := key
    rw [h, Host.Outcome.next.injEq] at hu
    exact hu ▸ hres
  cases i with
  | prefixW64 => exact absurd rfl hp
  | push r =>
    by_cases hr : s.inRange (pushAddress s) 8
    · have hw := hs.memWrite (memWrite_of_inRange (pushValue r s).toNat hr)
      exact ⟨_, execPush_of_inRange r hr, .inr ⟨rfl, hw.of_eq rfl rfl⟩⟩
    · exact ⟨_, execPush_of_not_inRange r hr, .inl ⟨_, truthful_of_not_inRange hr, rfl⟩⟩
  | pop r =>
    by_cases hr : s.inRange (popAddress s) 8
    · exact ⟨_, execPop_of_inRange r hr, .inr ⟨rfl, hs.of_eq rfl rfl⟩⟩
    · exact ⟨_, execPop_of_not_inRange r hr, .inl ⟨_, truthful_of_not_inRange hr, rfl⟩⟩
  | ret =>
    by_cases hr : s.inRange (popAddress s) 8
    · exact ⟨_, execRet_of_inRange hr, .inr ⟨rfl, hs.of_eq rfl rfl⟩⟩
    · exact ⟨_, execRet_of_not_inRange hr, .inl ⟨_, truthful_of_not_inRange hr, rfl⟩⟩
  | movRmR m a b => exact ⟨_, rfl, .inr ⟨rfl, hs.of_eq rfl rfl⟩⟩
  | movRImm32 r imm => exact ⟨_, rfl, .inr ⟨rfl, hs.of_eq rfl rfl⟩⟩
  | movRImm64 r imm => exact ⟨_, rfl, .inr ⟨rfl, hs.of_eq rfl rfl⟩⟩
  | illegal b => exact ⟨_, rfl, .inl ⟨_, truthful_of_fetchInstr_illegal hi, rfl⟩⟩

/-! ### Activations and steps -/

/-- An activation under way ends in a state with the invariant. -/
theorem activate_inv {s t : State} {w : Width} (hs : s.StorageInv) (hw : s.phase = .executing w)
    (h : activate s = .next t) : t.Inv := by
  refine activateFrom_ind (P := fun s t => s.StorageInv → (∃ w, s.phase = .executing w) → t.Inv)
    ?noByte ?badFetch ?run ?scan _ s t hs.config rfl h hs ⟨w, hw⟩
  case noByte =>
    intro s hz hs _
    exact hs.raise_inv (truthful_of_not_inRange (not_inRange_ip_of_bytesLeft_eq_zero hz))
  case badFetch =>
    intro s f hf hs _
    exact hs.raise_inv (truthful_of_fetchInstr_error hf)
  case run =>
    rintro s i u hi hp hu hs ⟨w, hw⟩
    rcases exec_fault_or_completes hi hp hu hs with ⟨f, hf, rfl⟩ | ⟨hphase, hu⟩
    · rw [finish_of_halted (raise_phase f s)]
      exact hs.raise_inv hf
    · rw [finish_of_executing (hphase.trans hw)]
      exact hu.boundary_inv
  case scan =>
    intro s u t _ _ _ hu ht hs _
    obtain rfl := exec_prefixW64_eq hu
    exact ht (hs.of_eq rfl rfl) ⟨_, rfl⟩

/-- Settles O35: the state stays, or an activation consumes the token and ends in a state with the invariant. -/
theorem stepKeepsTheInvariant : Obligations.StepKeepsTheInvariant := by
  unfold Obligations.StepKeepsTheInvariant
  intro s t hs h
  rcases step_cases h with ⟨-, -, ha⟩ | ⟨-, -, rfl⟩ | ⟨w, hw, -⟩ | ⟨_, -, rfl⟩
  · have hc : (consume s).StorageInv := hs.storageInv.of_eq rfl rfl
    exact activate_inv hc (consume_phase s) ha
  · exact hs
  · have hq := hs.atBoundary
    simp [quiescent, hw] at hq
  · exact hs

end Sys2Proof.Machine
end

section
/-! The canonical form of memory is unique (R47, R70): the least listed address is the least at which a read is not zero. -/

namespace Sys2Proof.Machine

@[simp] theorem Memory.read_cons_same (a : Nat) (v : Byte) (m : Memory) : Memory.read ((a, v) :: m) a = v :=
  if_pos rfl

theorem Memory.read_cons_ne {a b : Nat} (v : Byte) (m : Memory) (h : b ≠ a) :
    Memory.read ((a, v) :: m) b = m.read b :=
  if_neg h

/-- The cells after the first all lie above it, so at and below its address they read as zero. -/
theorem Memory.read_tail_of_le {a b : Nat} {v : Byte} {m : Memory} (h : Memory.wf ((a, v) :: m) = true) (hb : b ≤ a) :
    m.read b = 0 := by
  obtain ⟨-, hlt, -⟩ := Memory.wf_cons.1 h
  refine Memory.read_of_forall_ne fun c hc => ?_
  have := hlt c hc
  omega

/-- The first address listed is at most every address that does not read as zero. -/
theorem Memory.head_le_of_read_ne_zero {a b : Nat} {v : Byte} {m : Memory} (h : Memory.wf ((a, v) :: m) = true)
    (hb : Memory.read ((a, v) :: m) b ≠ 0) : a ≤ b := by
  by_contra hlt
  rw [Memory.read_cons_ne v m (by omega)] at hb
  exact hb (Memory.read_tail_of_le h (by omega))

/-- A canonical memory that reads as zero everywhere lists nothing. -/
theorem Memory.eq_nil_of_read_eq_zero {m : Memory} (h : m.wf = true) (hz : ∀ a, m.read a = 0) : m = [] := by
  cases m with
  | nil => rfl
  | cons c m =>
    obtain ⟨a, v⟩ := c
    obtain ⟨hv, -, -⟩ := Memory.wf_cons.1 h
    exact absurd ((Memory.read_cons_same a v m).symm.trans (hz a)) hv

/-- The cells of a canonical memory are determined by its reads, by induction on the list of cells. -/
theorem Memory.ext_read {m m' : Memory} (h : m.wf = true) (h' : m'.wf = true) (he : ∀ a, m.read a = m'.read a) :
    m = m' := by
  induction m generalizing m' with
  | nil => exact (Memory.eq_nil_of_read_eq_zero h' fun a => (he a).symm).symm
  | cons c m ih =>
    obtain ⟨a, v⟩ := c
    cases m' with
    | nil => exact Memory.eq_nil_of_read_eq_zero h he
    | cons c' m' =>
      obtain ⟨a', v'⟩ := c'
      obtain ⟨hv, -, hm⟩ := Memory.wf_cons.1 h
      obtain ⟨hv', -, hm'⟩ := Memory.wf_cons.1 h'
      have hle : a' ≤ a := Memory.head_le_of_read_ne_zero h' (by simpa [← he] using hv)
      have hge : a ≤ a' := Memory.head_le_of_read_ne_zero h (by simpa [he] using hv')
      obtain rfl := Nat.le_antisymm hge hle
      have hvv : v = v' := by simpa using he a
      have htail : ∀ b, Memory.read m b = Memory.read m' b := by
        intro b
        by_cases hb : b = a
        · rw [Memory.read_tail_of_le h hb.le, Memory.read_tail_of_le h' hb.le]
        · simpa only [Memory.read_cons_ne _ _ hb] using he b
      rw [hvv, ih hm hm' htail]

/-- Settles O4: memories that read alike have the same first cell, and their tails read alike. -/
theorem canonicalMemoriesThatReadAlikeAreEqual : Obligations.CanonicalMemoriesThatReadAlikeAreEqual := by
  unfold Obligations.CanonicalMemoriesThatReadAlikeAreEqual
  intro m m' h h' he
  exact Memory.ext_read h h' he

end Sys2Proof.Machine
end

section
/-! What a successful reset leaves (R49, R380, R381, D7): first the three ranges of the memory at start, then the registers. -/

namespace Sys2Proof.Machine

/-! ### The memory at start -/

/-- The sentinel cell holds `N - 8` even where the image reaches into it (R381). -/
theorem startMemory_read_sentinel {cfg : Config} (p : Process) {m : Memory} (hm : m.wf = true) {k : Nat} (hk : k < 8) :
    (startMemory p cfg m).read (cfg.memSize - 8 + k) = byteOf (cfg.memSize - 8) k := by
  rw [startMemory, Memory.read_writeBytes _ _ _ (Memory.writeBytes_wf _ _ hm), dif_pos (by simpa using hk)]
  simp only [Nat.add_sub_cancel_left]
  exact leBytes_getElem 8 (cfg.memSize - 8) k (by simpa using hk)

/-- Below the sentinel cell only the image is written. -/
theorem startMemory_read_below (p : Process) {cfg : Config} (m : Memory) {a : Nat} (ha : a < cfg.memSize - 8) :
    (startMemory p cfg m).read a = (m.writeBytes p.loadAddress.toNat p.imageBytes).read a :=
  Memory.read_writeBytes_outside _ _ _ _ (.inl ha)

theorem startMemory_read_image {p : Process} {cfg : Config} {m : Memory} (hm : m.wf = true) {k : Nat}
    (hk : k < p.imageBytes.length) (ha : p.loadAddress.toNat + k < cfg.memSize - 8) :
    (startMemory p cfg m).read (p.loadAddress.toNat + k) = p.imageBytes[k] := by
  rw [startMemory_read_below p m ha, Memory.read_writeBytes _ _ _ hm, dif_pos (by omega)]
  simp only [Nat.add_sub_cancel_left]

theorem startMemory_read_outside {p : Process} {cfg : Config} (m : Memory) {a : Nat} (ha : a < cfg.memSize - 8)
    (hout : a < p.loadAddress.toNat ∨ p.loadAddress.toNat + p.imageBytes.length ≤ a) :
    (startMemory p cfg m).read a = m.read a := by
  rw [startMemory_read_below p m ha, Memory.read_writeBytes_outside _ _ _ _ hout]

/-! ### The state after a reset -/

/-- What the boundary check at the end of a successful reset sees. -/
def resetLoaded (cfg : Config) (p : Process) : State :=
  ({ construct cfg with mem := startMemory p cfg [] }.setReg RSP (construct cfg).sentinel).setReg IP p.entryPoint

theorem resetWith_of_fits {cfg : Config} {p : Process} (h : p.fits cfg) :
    resetWith cfg p = boundary (resetLoaded cfg p) :=
  start_of_fits h

@[simp] theorem resetLoaded_mem (cfg : Config) (p : Process) : (resetLoaded cfg p).mem = startMemory p cfg [] := rfl

@[simp] theorem resetLoaded_ip (cfg : Config) (p : Process) : (resetLoaded cfg p).ip = p.entryPoint :=
  getReg_setReg_same ..

@[simp] theorem resetLoaded_rsp (cfg : Config) (p : Process) :
    (resetLoaded cfg p).getReg RSP = BitVec.ofNat 64 (cfg.memSize - 8) := by
  rw [resetLoaded, getReg_setReg_ne _ _ (by decide), getReg_setReg_same]
  rfl

theorem resetLoaded_getReg_other {cfg : Config} {p : Process} {i : Slot} (hsp : i ≠ RSP) (hip : i ≠ IP) :
    (resetLoaded cfg p).getReg i = 0 := by
  rw [resetLoaded, getReg_setReg_ne _ _ hip, getReg_setReg_ne _ _ hsp, getReg_withMem, construct_getReg]

/-- The accumulator is zero, so a start at the sentinel exits with code 0. -/
theorem resetLoaded_exitCode (cfg : Config) (p : Process) : (resetLoaded cfg p).exitCode = 0 := by
  simp [State.exitCode, resetLoaded_getReg_other (cfg := cfg) (p := p) (i := RAX) (by decide) (by decide)]

theorem boundary_resetLoaded_phase (cfg : Config) (p : Process) :
    (boundary (resetLoaded cfg p)).phase =
      if p.entryPoint = BitVec.ofNat 64 (cfg.memSize - 8) then .halted (.exited 0) else .waiting := by
  rw [boundary_phase, resetLoaded_ip, resetLoaded_exitCode]
  rfl

/-- Settles O38: the state before the boundary check has the registers and memory, and the check sets the phase. -/
theorem resetLeavesTheImageTheSentinelAndTheStackPointer :
    Obligations.ResetLeavesTheImageTheSentinelAndTheStackPointer := by
  unfold Obligations.ResetLeavesTheImageTheSentinelAndTheStackPointer
  intro cfg p _ hfits
  refine ⟨_, resetWith_of_fits hfits, rfl, rfl, resetLoaded_rsp cfg p, resetLoaded_ip cfg p, ?_, ?_, ?_, ?_,
    boundary_resetLoaded_phase cfg p⟩
  · exact fun i hsp hip => resetLoaded_getReg_other hsp hip
  · exact fun k hk => startMemory_read_sentinel p rfl hk
  · exact fun k hk ha => startMemory_read_image rfl hk ha
  · exact fun a ha hout => startMemory_read_outside [] ha hout

end Sys2Proof.Machine
end

section
/-! Writes of a slot, and indices that name none (R31, D19). -/

namespace Sys2Proof.Machine

theorem getRegister_of_out_of_range {s : State} {n : Nat} (hq : quiescent s = true) (hn : 18 ≤ n) :
    getRegister s n = .refused := by
  rw [getRegister, if_pos hq, dif_neg (Nat.not_lt.2 hn)]

/-- Settles O1: the laws of `State.setReg`, and the refusal of `getRegister`. -/
theorem registerSetThenGetReturnsTheValue : Obligations.RegisterSetThenGetReturnsTheValue := by
  unfold Obligations.RegisterSetThenGetReturnsTheValue
  intro s i v
  exact ⟨getReg_setReg_same s i v, fun j hj => getReg_setReg_ne s v hj, setReg_cfg s i v, setReg_mem s i v,
    setReg_phase s i v, setReg_token s i v, fun n hn hq => getRegister_of_out_of_range hq hn⟩

end Sys2Proof.Machine
end

section
/-! The memory primitives (R73 to R77, R89): the number a read gives, the bytes a write leaves, and the fetch after a store. -/

namespace Sys2Proof.Machine

/-! ### Reads -/

/-- The number read from a range weighs byte `k` by `2^(8k)`, by induction on the width: the first byte has weight 1, and
the bytes after it weigh 256 times what they weigh in the range that starts one address higher. -/
theorem leNat_readBytes_eq_sum (m : Memory) (a n : Nat) :
    leNat (m.readBytes a n) = ∑ k ∈ Finset.range n, 2 ^ (8 * k) * (m.read (a + k)).toNat := by
  induction n generalizing a with
  | zero => rfl
  | succ n ih =>
    have hweight : ∀ k, 2 ^ (8 * (k + 1)) * (m.read (a + (k + 1))).toNat =
        256 * (2 ^ (8 * k) * (m.read (a + 1 + k)).toNat) := by
      intro k
      rw [Nat.add_right_comm a 1 k, Nat.add_assoc a k 1]
      ring
    rw [Memory.readBytes, leNat, ih, Finset.sum_range_succ', Finset.mul_sum]
    simp [hweight, Nat.add_comm]

/-- Settles O2: the bound decides between the fault and the sum. -/
theorem memReadIsTheLittleEndianSumOrFaults : Obligations.MemReadIsTheLittleEndianSumOrFaults := by
  unfold Obligations.MemReadIsTheLittleEndianSumOrFaults
  intro s a n
  refine ⟨fun hout => memRead_of_not_inRange (Nat.not_le.2 hout), fun hin => ?_⟩
  rw [memRead_of_inRange hin, leNat_readBytes_eq_sum]

/-! ### Writes -/

/-- A store leaves byte `k` of the value at `a + k`. -/
theorem read_memWrite_stored {s t : State} {a : Word} {n v k : Nat} (hs : s.mem.wf = true)
    (h : memWrite s a n v = .ok t) (hk : k < n) : t.mem.read (a.toNat + k) = byteOf v k := by
  obtain ⟨-, rfl⟩ := memWrite_ok_iff.1 h
  rw [Memory.read_writeBytes _ _ _ hs, dif_pos (by simpa using hk)]
  simp only [Nat.add_sub_cancel_left]
  exact leBytes_getElem n v k (by simpa using hk)

/-- A store leaves every byte outside its range alone. -/
theorem read_memWrite_outside {s t : State} {a : Word} {n v b : Nat} (h : memWrite s a n v = .ok t)
    (hb : b < a.toNat ∨ a.toNat + n ≤ b) : t.mem.read b = s.mem.read b := by
  obtain ⟨-, rfl⟩ := memWrite_ok_iff.1 h
  exact Memory.read_writeBytes_outside _ _ _ _ (by simpa using hb)

/-- Settles O3: the bound decides between the fault and the store, whose bytes and frame are the two lemmas above. -/
theorem memWriteStoresLittleEndianOrFaults : Obligations.MemWriteStoresLittleEndianOrFaults := by
  unfold Obligations.MemWriteStoresLittleEndianOrFaults
  intro s a n v hs
  refine ⟨fun hout => memWrite_of_not_inRange v (Nat.not_le.2 hout), fun hin => ?_⟩
  have hw := memWrite_of_inRange v hin
  exact ⟨_, hw, rfl, rfl, rfl, rfl, fun _ hk => read_memWrite_stored hs hw hk, fun _ hb => read_memWrite_outside hw hb⟩

/-! ### A fetch after a store -/

/-- Every byte of a completed store is in range for a fetch. -/
theorem inRange_one_of_memWrite {s t : State} {a j : Word} {n v k : Nat} (h : memWrite s a n v = .ok t) (hk : k < n)
    (hj : j.toNat = a.toNat + k) : t.inRange j 1 := by
  obtain ⟨hr, rfl⟩ := memWrite_ok_iff.1 h
  simp only [State.inRange] at *
  omega

/-- Settles O5: the address is in range because the store was, and a fetch reads the memory the store left. -/
theorem aStoreIsSeenByTheNextFetch : Obligations.AStoreIsSeenByTheNextFetch := by
  unfold Obligations.AStoreIsSeenByTheNextFetch
  intro s t a j v k hs hw hk hj
  rw [fetchByte_eq, if_pos (inRange_one_of_memWrite hw hk hj), hj, read_memWrite_stored hs hw hk]

end Sys2Proof.Machine
end

section
/-! The encoding (R110 to R118): the rows of the opcode map, decoding and encoding as inverses from the opcode byte on, and
the same after any number of prefixes. -/

namespace Sys2Proof.Machine

/-! ### The fields of an opcode and of a ModRM byte (R111, R114, R116) -/

/-- A byte in the eight values from `8 * base` on is the five bits `base` and a register field. -/
theorem byte_eq_append_reg {base : BitVec 5} {b : Byte} (hlo : 8 * base.toNat ≤ b.toNat)
    (hhi : b.toNat ≤ 8 * base.toNat + 7) : b = base ++ BitVec.ofNat 3 (b.toNat - 8 * base.toNat) := by
  apply BitVec.eq_of_toNat_eq
  rw [BitVec.toNat_append, BitVec.toNat_ofNat, Nat.mod_eq_of_lt (by omega), ← Nat.shiftLeft_add_eq_or_of_lt (by omega),
    Nat.shiftLeft_eq]
  omega

theorem opcodeReg_append (base : BitVec 5) (r : BitVec 3) : opcodeReg (base ++ r) = r :=
  BitVec.extractLsb'_append_eq_right

theorem modrm_fields (m : BitVec 2) (s d : BitVec 3) :
    modrmMod (m ++ s ++ d) = m ∧ modrmSrc (m ++ s ++ d) = s ∧ modrmDst (m ++ s ++ d) = d := by
  revert m s d
  decide

theorem modrm_append (m : Byte) : modrmMod m ++ modrmSrc m ++ modrmDst m = m := by
  revert m
  decide

/-! ### The rows of the opcode map (R118) -/

/-- Every byte in opcode position is of one row of the opcode table. -/
theorem opcode_rows : ∀ b : Byte, b = 0x48 ∨ (∃ r : BitVec 3, b = 0b01010#5 ++ r) ∨ (∃ r : BitVec 3, b = 0b01011#5 ++ r) ∨
    b = 0x89 ∨ (∃ r : BitVec 3, b = 0b10111#5 ++ r) ∨ b = 0xC3 ∨ illegalByte b = true := by
  decide

/-- An illegal byte is none of the opcodes the decoder compares with. -/
theorem no_row_of_illegalByte : ∀ {b : Byte}, illegalByte b = true → b ≠ 0x48 ∧ ¬ (0x50 ≤ b ∧ b ≤ 0x57) ∧
    ¬ (0x58 ≤ b ∧ b ≤ 0x5F) ∧ b ≠ 0x89 ∧ ¬ (0xB8 ≤ b ∧ b ≤ 0xBF) ∧ b ≠ 0xC3 := by
  decide

section
variable (w : Width) (v : Nat) (r : BitVec 3)

theorem decodeOpcode_push : decodeOpcode w (0b01010#5 ++ r) v = .push r := by
  unfold decodeOpcode
  rw [if_neg (by revert r; decide), if_pos (by revert r; decide), opcodeReg_append]

theorem decodeOpcode_pop : decodeOpcode w (0b01011#5 ++ r) v = .pop r := by
  unfold decodeOpcode
  rw [if_neg (by revert r; decide), if_neg (by revert r; decide), if_pos (by revert r; decide),
    opcodeReg_append]

theorem decodeOpcode_movRmR : decodeOpcode w 0x89 v =
    .movRmR (modrmMod (BitVec.ofNat 8 v)) (modrmSrc (BitVec.ofNat 8 v)) (modrmDst (BitVec.ofNat 8 v)) :=
  rfl

/-- The opcodes 0xB8 to 0xBF pass every earlier comparison of the decoder. -/
theorem imm_row : (0b10111#5 ++ r : Byte) ≠ 0x48 ∧ ¬ ((0x50 : Byte) ≤ 0b10111#5 ++ r ∧ 0b10111#5 ++ r ≤ (0x57 : Byte)) ∧
    ¬ ((0x58 : Byte) ≤ 0b10111#5 ++ r ∧ 0b10111#5 ++ r ≤ (0x5F : Byte)) ∧ (0b10111#5 ++ r : Byte) ≠ 0x89 ∧
    (0xB8 : Byte) ≤ 0b10111#5 ++ r ∧ 0b10111#5 ++ r ≤ (0xBF : Byte) := by
  revert r
  decide

theorem decodeOpcode_movRImm32 : decodeOpcode .w32 (0b10111#5 ++ r) v = .movRImm32 r (BitVec.ofNat 32 v) := by
  obtain ⟨h1, h2, h3, h4, h5⟩ := imm_row r
  unfold decodeOpcode
  rw [if_neg h1, if_neg h2, if_neg h3, if_neg h4, if_pos h5, opcodeReg_append]

theorem decodeOpcode_movRImm64 : decodeOpcode .w64 (0b10111#5 ++ r) v = .movRImm64 r (BitVec.ofNat 64 v) := by
  obtain ⟨h1, h2, h3, h4, h5⟩ := imm_row r
  unfold decodeOpcode
  rw [if_neg h1, if_neg h2, if_neg h3, if_neg h4, if_pos h5, opcodeReg_append]

theorem decodeOpcode_illegal {b : Byte} (h : illegalByte b = true) : decodeOpcode w b v = .illegal b := by
  obtain ⟨h1, h2, h3, h4, h5, h6⟩ := no_row_of_illegalByte h
  unfold decodeOpcode
  rw [if_neg h1, if_neg h2, if_neg h3, if_neg h4, if_neg h5, if_neg h6]

end

/-! ### From the opcode byte on: decoding and encoding are inverses -/

/-- What decodes: an opcode byte, as many operand bytes as it calls for, and the rest. -/
theorem decode_eq_ok_iff_bytes {w : Width} {bytes rest : List Byte} {i : Instr} : decode w bytes = .ok (i, rest) ↔
    ∃ b ops, bytes = b :: (ops ++ rest) ∧ ops.length = operandBytes w b ∧ i = decodeOpcode w b (leNat ops) := by
  cases bytes with
  | nil => simp [decode]
  | cons b bs =>
    rw [decode]
    constructor
    · intro h
      split at h
      · simp at h
      · rename_i hlen
        simp only [Except.ok.injEq, Prod.mk.injEq] at h
        obtain ⟨rfl, rfl⟩ := h
        exact ⟨b, _, by rw [List.take_append_drop], by simpa using hlen, rfl⟩
    · rintro ⟨b', ops, hbytes, hlen, rfl⟩
      obtain ⟨rfl, rfl⟩ := List.cons.inj hbytes
      rw [if_neg (by simp [hlen]), List.take_left' hlen, List.drop_left' hlen]

/-- The shape of every encoding, from the lemma of each constructor. -/
theorem encoded_shape : ∀ i : Instr, Laws.EncodedShape.Statement i
  | .prefixW64 => Laws.EncodedShape.prefixW64
  | .push r => Laws.EncodedShape.push r
  | .pop r => Laws.EncodedShape.pop r
  | .movRmR m s d => Laws.EncodedShape.movRmR m s d
  | .movRImm32 r imm => Laws.EncodedShape.movRImm32 r imm
  | .movRImm64 r imm => Laws.EncodedShape.movRImm64 r imm
  | .ret => Laws.EncodedShape.ret
  | .illegal b => Laws.EncodedShape.illegal b

/-- An immediate written as `n` little-endian bytes and read back. -/
theorem ofNat_leNat_leBytes {n k : Nat} (h : 2 ^ k = 256 ^ n) (imm : BitVec k) :
    BitVec.ofNat k (leNat (leBytes n imm.toNat)) = imm := by
  rw [leNat_leBytes, ← h, Nat.mod_eq_of_lt imm.isLt, BitVec.ofNat_toNat, BitVec.setWidth_eq]

/-- `n` little-endian bytes read as an immediate and written back. -/
theorem leBytes_ofNat_leNat {n k : Nat} (h : 2 ^ k = 256 ^ n) {ops : List Byte} (hlen : ops.length = n) :
    leBytes n (BitVec.ofNat k (leNat ops)).toNat = ops := by
  subst hlen
  rw [BitVec.toNat_ofNat, h, Nat.mod_eq_of_lt (leNat_lt ops), leBytes_leNat]

/-- The opcode and operand bytes of an encoding decode to the instruction, with every operand bit (R111). -/
theorem decodeOpcode_of_encode {w : Width} {i : Instr} {b : Byte} {ops : List Byte} (hw : i.wf w = true)
    (h : encode i = b :: ops) : decodeOpcode w b (leNat ops) = i := by
  cases i <;> simp only [encode, List.cons.injEq] at h <;> obtain ⟨rfl, rfl⟩ := h
  case prefixW64 => rfl
  case push r => exact decodeOpcode_push w _ r
  case pop r => exact decodeOpcode_pop w _ r
  case movRmR m s d =>
    obtain ⟨hm, hs, hd⟩ := modrm_fields m s d
    have hv : BitVec.ofNat 8 (leNat [m ++ s ++ d]) = m ++ s ++ d := by simp [leNat]
    exact (decodeOpcode_movRmR w _).trans (by rw [hv, hm, hs, hd])
  case movRImm32 r imm =>
    obtain rfl : w = .w32 := by simpa [Instr.wf] using hw
    rw [decodeOpcode_movRImm32, ofNat_leNat_leBytes (by norm_num)]
  case movRImm64 r imm =>
    obtain rfl : w = .w64 := by simpa [Instr.wf] using hw
    rw [decodeOpcode_movRImm64, ofNat_leNat_leBytes (by norm_num)]
  case ret => rfl
  case illegal => exact decodeOpcode_illegal w _ hw

/-- Operand bytes as many as an encoding's opcode calls for are as many as the encoding has. -/
theorem length_eq_of_encode {w : Width} {i : Instr} {b : Byte} {ops ops' : List Byte} (hw : i.wf w = true)
    (h : encode i = b :: ops) (hlen : ops'.length = operandBytes w b) : ops'.length = ops.length := by
  obtain ⟨b', bs, henc, hbs, -⟩ := encoded_shape i w hw
  obtain ⟨rfl, rfl⟩ := List.cons.inj (h.symm.trans henc)
  exact hlen.trans hbs.symm

/-- Any opcode byte with any operand bytes is the encoding of a well-formed instruction (R118, R120). -/
theorem exists_encode_eq {w : Width} {b : Byte} {ops : List Byte} (hlen : ops.length = operandBytes w b) :
    ∃ i : Instr, i.wf w = true ∧ encode i = b :: ops := by
  rcases opcode_rows b with rfl | ⟨r, rfl⟩ | ⟨r, rfl⟩ | rfl | ⟨r, rfl⟩ | rfl | hb
  · obtain rfl := List.length_eq_zero_iff.1 (length_eq_of_encode (i := .prefixW64) rfl rfl hlen)
    exact ⟨.prefixW64, rfl, rfl⟩
  · obtain rfl := List.length_eq_zero_iff.1 (length_eq_of_encode (i := .push r) rfl rfl hlen)
    exact ⟨.push r, rfl, rfl⟩
  · obtain rfl := List.length_eq_zero_iff.1 (length_eq_of_encode (i := .pop r) rfl rfl hlen)
    exact ⟨.pop r, rfl, rfl⟩
  · obtain ⟨m, rfl⟩ := List.length_eq_one_iff.1 (length_eq_of_encode (i := .movRmR 0 0 0) rfl rfl hlen)
    exact ⟨.movRmR (modrmMod m) (modrmSrc m) (modrmDst m), rfl, congrArg (0x89#8 :: [·]) (modrm_append m)⟩
  · cases w with
    | w32 =>
      have h4 : ops.length = 4 := length_eq_of_encode (i := .movRImm32 r 0) rfl rfl hlen
      exact ⟨.movRImm32 r (BitVec.ofNat 32 (leNat ops)), rfl, by rw [encode, leBytes_ofNat_leNat (by norm_num) h4]⟩
    | w64 =>
      have h8 : ops.length = 8 := length_eq_of_encode (i := .movRImm64 r 0) rfl rfl hlen
      exact ⟨.movRImm64 r (BitVec.ofNat 64 (leNat ops)), rfl, by rw [encode, leBytes_ofNat_leNat (by norm_num) h8]⟩
  · obtain rfl := List.length_eq_zero_iff.1 (length_eq_of_encode (i := .ret) rfl rfl hlen)
    exact ⟨.ret, rfl, rfl⟩
  · obtain rfl := List.length_eq_zero_iff.1 (length_eq_of_encode (i := .illegal b) hb rfl hlen)
    exact ⟨.illegal b, hb, rfl⟩

/-- Decoding from the opcode byte on is exactly the inverse of encoding a well-formed instruction. -/
theorem decode_eq_ok_iff {w : Width} {bytes rest : List Byte} {i : Instr} :
    decode w bytes = .ok (i, rest) ↔ i.wf w = true ∧ bytes = encode i ++ rest := by
  rw [decode_eq_ok_iff_bytes]
  constructor
  · rintro ⟨b, ops, rfl, hlen, rfl⟩
    obtain ⟨i, hw, henc⟩ := exists_encode_eq hlen
    rw [decodeOpcode_of_encode hw henc, henc]
    exact ⟨hw, rfl⟩
  · rintro ⟨hw, rfl⟩
    obtain ⟨b, ops, henc, hlen, -⟩ := encoded_shape i w hw
    exact ⟨b, ops, by rw [henc, List.cons_append], hlen, (decodeOpcode_of_encode hw henc).symm⟩

/-! ### A whole instruction (R110, R112) -/

/-- A well-formed instruction's encoding is an opcode byte, 0x48 for `prefixW64` only, and operand bytes as many as its
length says. -/
theorem encode_eq_cons {w : Width} {i : Instr} (hw : i.wf w = true) :
    ∃ b ops, encode i = b :: ops ∧ (b = 0x48 ↔ i = .prefixW64) ∧ i.length = ops.length + 1 := by
  obtain ⟨b, ops, henc, -, hlen⟩ := encoded_shape i w hw
  exact ⟨b, ops, henc, by rw [← decodeOpcode_eq_prefixW64, decodeOpcode_of_encode hw henc], hlen⟩

theorem scanPrefixes_prefix (bs : List Byte) :
    scanPrefixes (0x48#8 :: bs) = ((scanPrefixes bs).1 + 1, (scanPrefixes bs).2) := rfl

theorem scanPrefixes_of_ne {b : Byte} (hb : b ≠ 0x48#8) (bs : List Byte) : scanPrefixes (b :: bs) = (0, b :: bs) :=
  if_neg hb

theorem replicate_scanPrefixes_append (bytes : List Byte) :
    List.replicate (scanPrefixes bytes).1 0x48#8 ++ (scanPrefixes bytes).2 = bytes := by
  induction bytes with
  | nil => rfl
  | cons b bs ih =>
    by_cases hb : b = 0x48#8
    · rw [hb, scanPrefixes_prefix, List.replicate_succ, List.cons_append, ih]
    · rw [scanPrefixes_of_ne hb, List.replicate_zero, List.nil_append]

/-- The scan of the prefixes stops before a byte that is not 0x48. -/
theorem scanPrefixes_snd_ne_cons (bytes bs : List Byte) : (scanPrefixes bytes).2 ≠ 0x48#8 :: bs := by
  induction bytes with
  | nil => simp [scanPrefixes]
  | cons b bs' ih =>
    by_cases hb : b = 0x48#8
    · rwa [hb, scanPrefixes_prefix]
    · simp [scanPrefixes_of_ne hb, hb]

theorem scanPrefixes_replicate_append (p : Nat) {b : Byte} (hb : b ≠ 0x48#8) (bs : List Byte) :
    scanPrefixes (List.replicate p 0x48#8 ++ b :: bs) = (p, b :: bs) := by
  induction p with
  | zero => exact scanPrefixes_of_ne hb bs
  | succ p ih => rw [List.replicate_succ, List.cons_append, scanPrefixes_prefix, ih]

/-- A whole instruction decodes as its tail after the prefixes does, at the width they give. -/
theorem decodeWhole_eq_ok_iff_scan {bytes rest : List Byte} {p : Nat} {i : Instr} :
    decodeWhole bytes = .ok (p, i, rest) ↔
      (scanPrefixes bytes).1 = p ∧ decode (widthAfter p) (scanPrefixes bytes).2 = .ok (i, rest) := by
  rw [decodeWhole]
  constructor
  · intro h
    split at h
    · simp at h
    · rename_i i' rest' hd
      simp only [Except.ok.injEq, Prod.mk.injEq] at h
      obtain ⟨rfl, rfl, rfl⟩ := h
      exact ⟨rfl, hd⟩
  · rintro ⟨rfl, hd⟩
    rw [hd]

/-- Decoding a whole instruction is exactly the inverse of encoding it: every string of bytes has at most one reading, and
every well-formed instruction but `prefixW64` has its encoding read back. -/
theorem decodeWhole_eq_ok_iff {bytes rest : List Byte} {p : Nat} {i : Instr} : decodeWhole bytes = .ok (p, i, rest) ↔
    i.wf (widthAfter p) = true ∧ i ≠ .prefixW64 ∧ bytes = encodeWhole p i ++ rest := by
  rw [decodeWhole_eq_ok_iff_scan, encodeWhole, List.append_assoc]
  constructor
  · rintro ⟨rfl, hd⟩
    obtain ⟨hw, htail⟩ := decode_eq_ok_iff.1 hd
    refine ⟨hw, ?_, by rw [← htail, replicate_scanPrefixes_append]⟩
    rintro rfl
    exact scanPrefixes_snd_ne_cons bytes rest htail
  · rintro ⟨hw, hne, rfl⟩
    obtain ⟨b, ops, henc, hb, -⟩ := encode_eq_cons hw
    have hscan := scanPrefixes_replicate_append p (mt hb.1 hne) (ops ++ rest)
    rw [← List.cons_append, ← henc] at hscan
    rw [hscan]
    exact ⟨rfl, decode_eq_ok_iff.2 ⟨hw, rfl⟩⟩

/-- Settles O21: the direction from the encoding to its decoding. -/
theorem decodingAnEncodingGivesItBack : Obligations.DecodingAnEncodingGivesItBack := by
  unfold Obligations.DecodingAnEncodingGivesItBack
  exact ⟨fun _ _ _ hw => decode_eq_ok_iff.2 ⟨hw, rfl⟩, fun _ _ _ hw hne => decodeWhole_eq_ok_iff.2 ⟨hw, hne, rfl⟩⟩

/-- Settles O22: the direction from the bytes to what they encode. -/
theorem decodedBytesAreTheEncoding : Obligations.DecodedBytesAreTheEncoding := by
  unfold Obligations.DecodedBytesAreTheEncoding
  exact fun _ _ _ _ h => decodeWhole_eq_ok_iff.1 h

/-! ### The opcode map, value by value (R118) -/

theorem illegalByte_iff (b : Byte) : illegalByte b = true ↔
    b.toNat ≤ 0x47 ∨ (0x49 ≤ b.toNat ∧ b.toNat ≤ 0x4F) ∨ (0x60 ≤ b.toNat ∧ b.toNat ≤ 0x88) ∨
      (0x8A ≤ b.toNat ∧ b.toNat ≤ 0xB7) ∨ (0xC0 ≤ b.toNat ∧ b.toNat ≤ 0xC2) ∨ 0xC4 ≤ b.toNat := by
  simp [illegalByte, or_assoc]

/-- The fields of the ModRM byte as bits of the operand number. -/
theorem modrm_ofNat (v : Nat) : modrmMod (BitVec.ofNat 8 v) = BitVec.ofNat 2 (v / 64) ∧
    modrmSrc (BitVec.ofNat 8 v) = BitVec.ofNat 3 (v / 8) ∧ modrmDst (BitVec.ofNat 8 v) = BitVec.ofNat 3 v := by
  refine ⟨?_, ?_, ?_⟩ <;> apply BitVec.eq_of_toNat_eq <;>
    simp only [modrmMod, modrmSrc, modrmDst, BitVec.extractLsb'_toNat, BitVec.toNat_ofNat, Nat.shiftRight_eq_div_pow] <;>
    omega

/-- Settles O20: each range is a row of the map, its register field the offset in the range; the count is evaluated. -/
theorem opcodeMapIsTheSpecs : Obligations.OpcodeMapIsTheSpecs := by
  unfold Obligations.OpcodeMapIsTheSpecs
  refine ⟨fun b w v => ⟨?illegal, ?w64, ?push, ?pop, ?mov, ?imm, ?ret⟩, by decide +kernel⟩
  case illegal => exact fun h => decodeOpcode_illegal w v ((illegalByte_iff b).2 h)
  case w64 => exact fun h => decodeOpcode_eq_prefixW64.2 (BitVec.eq_of_toNat_eq h)
  case push =>
    rintro ⟨hlo, hhi⟩
    conv_lhs => rw [byte_eq_append_reg (base := 0b01010#5) hlo hhi]
    exact decodeOpcode_push w v _
  case pop =>
    rintro ⟨hlo, hhi⟩
    conv_lhs => rw [byte_eq_append_reg (base := 0b01011#5) hlo hhi]
    exact decodeOpcode_pop w v _
  case mov =>
    intro h
    obtain rfl : b = 0x89 := BitVec.eq_of_toNat_eq h
    obtain ⟨hm, hs, hd⟩ := modrm_ofNat v
    rw [decodeOpcode_movRmR, hm, hs, hd]
  case imm =>
    rintro ⟨hlo, hhi⟩
    conv_lhs => rw [byte_eq_append_reg (base := 0b10111#5) hlo hhi]
    cases w with
    | w32 => exact decodeOpcode_movRImm32 v _
    | w64 => exact decodeOpcode_movRImm64 v _
  case ret =>
    intro h
    obtain rfl : b = 0xC3 := BitVec.eq_of_toNat_eq h
    rfl

/-! ### The assembler's lines (R124, D22) -/

theorem plusReg_eq_append (r : BitVec 3) : plusReg 0x50 r = 0b01010#5 ++ r ∧ plusReg 0x58 r = 0b01011#5 ++ r ∧
    plusReg 0xB8 r = 0b10111#5 ++ r := by
  revert r
  decide

theorem modrmByte_eq_append (d s : BitVec 3) : modrmByte d s = 0b11#2 ++ s ++ d := by
  revert d s
  decide

/-- A line's bytes are the encoding of its meaning. -/
theorem AsmLine.bytes_eq_encodeWhole (line : AsmLine) : line.bytes = encodeWhole line.meaning.1 line.meaning.2 := by
  cases line with
  | push r => rw [AsmLine.bytes, (plusReg_eq_append r).1]; rfl
  | pop r => rw [AsmLine.bytes, (plusReg_eq_append r).2.1]; rfl
  | movRR d s => rw [AsmLine.bytes, modrmByte_eq_append]; rfl
  | movEE d s => rw [AsmLine.bytes, modrmByte_eq_append]; rfl
  | movEImm r imm => rw [AsmLine.bytes, (plusReg_eq_append r).2.2]; rfl
  | movRImm r imm => rw [AsmLine.bytes, (plusReg_eq_append r).2.2]; rfl
  | ret => rfl

/-- A line's meaning is well-formed at the width its prefixes give, and not `prefixW64`. -/
theorem AsmLine.meaning_wf (line : AsmLine) :
    line.meaning.2.wf (widthAfter line.meaning.1) = true ∧ line.meaning.2 ≠ .prefixW64 := by
  cases line <;> exact ⟨rfl, Instr.noConfusion⟩

/-- Settles O23: a line's bytes are an encoding, which decodes to what it encodes. -/
theorem assembledLinesDecode : Obligations.AssembledLinesDecode := by
  unfold Obligations.AssembledLinesDecode
  intro line rest
  obtain ⟨hw, hne⟩ := line.meaning_wf
  exact decodeWhole_eq_ok_iff.2 ⟨hw, hne, by rw [line.bytes_eq_encodeWhole]⟩

/-! ### The parts of an instruction (R110) -/

theorem widthAfter_eq_w32 {p : Nat} (h : widthAfter p = .w32) : p = 0 := by
  by_contra hp
  simp [widthAfter, hp] at h

theorem widthAfter_eq_w64 {p : Nat} (h : widthAfter p = .w64) : 1 ≤ p := by
  by_contra hp
  simp [widthAfter, Nat.lt_one_iff.1 (Nat.not_le.1 hp)] at h

/-- Settles O24: the bytes are the encoding, whose opcode byte is no 0x48 and whose length is the instruction's. -/
theorem instructionIsPrefixesOpcodeOperands : Obligations.InstructionIsPrefixesOpcodeOperands := by
  unfold Obligations.InstructionIsPrefixesOpcodeOperands
  intro bytes rest p i h hdef
  obtain ⟨hw, hne, rfl⟩ := decodeWhole_eq_ok_iff.1 h
  obtain ⟨b, ops, henc, hb, hlen⟩ := encode_eq_cons hw
  refine ⟨b, ops, mt hb.1 hne, by simp [encodeWhole, henc], ?_⟩
  have hops : ops.length = i.length - 1 := by omega
  cases i with
  | prefixW64 => exact hne rfl
  | illegal b' => exact hdef b' rfl
  | push | pop | movRmR | ret => exact hops
  | movRImm32 => exact ⟨widthAfter_eq_w32 (of_decide_eq_true hw), hops⟩
  | movRImm64 => exact ⟨widthAfter_eq_w64 (of_decide_eq_true hw), hops⟩

/-- Settles O25: each of the seven strings is evaluated as an encoding. -/
theorem writtenOutWordsDecode : Obligations.WrittenOutWordsDecode := by
  unfold Obligations.WrittenOutWordsDecode
  simp only [decodeWhole_eq_ok_iff]
  decide

end Sys2Proof.Machine
end

section
/-! The execution cycle (R150 to R158): what `prefixW64` and an illegal byte do, how far each instruction moves the instruction
pointer, and the ways an activation ends. -/

namespace Sys2Proof.Machine

/-! ### `prefixW64` and the illegal byte (R154, R157) -/

/-- Settles O12: `advance` writes the instruction pointer only, and the width is the phase's. -/
theorem prefixSetsTheWidthAndAdvances : Obligations.PrefixSetsTheWidthAndAdvances := by
  unfold Obligations.PrefixSetsTheWidthAndAdvances
  intro s
  refine ⟨_, rfl, advance_ip s 1, rfl, rfl, rfl, rfl, fun i hi => ?_, fun _ => rfl⟩
  exact (getReg_advance s 1 i).trans (if_neg hi)

/-- Settles O13: the meaning is fault entry, which changes the phase only. -/
theorem illegalByteTakesTheDecodeFault : Obligations.IllegalByteTakesTheDecodeFault := by
  unfold Obligations.IllegalByteTakesTheDecodeFault
  intro b s
  exact ⟨_, rfl, raise_phase _ s, raise_cfg _ s, raise_regs _ s, raise_token _ s, fun _ => rfl⟩

/-! ### The instruction pointer after an instruction (R153) -/

theorem not_safe_raise (f : EngineFault) (s : State) : ¬ (raise f s).safe := fun h => h f rfl

/-- A write of another slot does not change where `advance` leads. -/
theorem setReg_advance_ip (s : State) {i : Slot} (v : Word) (n : Nat) (h : i ≠ IP) :
    ((s.setReg i v).advance n).ip = s.ip + BitVec.ofNat 64 n := by
  rw [advance_ip, setReg_ip_ne s v h]

/-- The word at an address is the one whose bytes memory holds there. -/
theorem holdsWord_word (m : Memory) (a : Nat) : holdsWord m a (m.word a) := by
  intro k hk
  have hlt : leNat (m.readBytes a 8) < 2 ^ 64 := leNat_readBytes_lt m a 8
  have hlen : k < (m.readBytes a 8).length := by simpa using hk
  rw [byteOf, Memory.word, BitVec.toNat_ofNat, Nat.mod_eq_of_lt hlt, leNat_byte _ k hlen, Memory.readBytes_getElem]

section
variable {r : BitVec 3} {s t : State}

theorem execPush_ip_of_safe (h : execPush r s = .next t) (hs : t.safe) : t.ip = s.ip + 1 := by
  by_cases hr : s.inRange (pushAddress s) 8
  · obtain rfl := Host.Outcome.next.inj ((execPush_of_inRange r hr).symm.trans h)
    exact setReg_advance_ip _ _ 1 (by decide)
  · obtain rfl := Host.Outcome.next.inj ((execPush_of_not_inRange r hr).symm.trans h)
    exact absurd hs (not_safe_raise _ s)

theorem execPop_ip_of_safe (h : execPop r s = .next t) (hs : t.safe) : t.ip = s.ip + 1 := by
  by_cases hr : s.inRange (popAddress s) 8
  · obtain rfl := Host.Outcome.next.inj ((execPop_of_inRange r hr).symm.trans h)
    rw [advance_ip, popInto_ip]
    rfl
  · obtain rfl := Host.Outcome.next.inj ((execPop_of_not_inRange r hr).symm.trans h)
    exact absurd hs (not_safe_raise _ s)

theorem execRet_holdsWord_ip_of_safe (h : execRet s = .next t) (hs : t.safe) :
    holdsWord s.mem (s.getReg RSP).toNat t.ip := by
  by_cases hr : s.inRange (popAddress s) 8
  · obtain rfl := Host.Outcome.next.inj ((execRet_of_inRange hr).symm.trans h)
    rw [State.ip, getReg_setReg_same]
    exact holdsWord_word s.mem _
  · obtain rfl := Host.Outcome.next.inj ((execRet_of_not_inRange hr).symm.trans h)
    exact absurd hs (not_safe_raise _ s)

end

/-- Settles O15: by cases on the instruction; the stack instructions complete only in range, and `illegal` never does. -/
theorem eachInstructionAdvancesPastItsLastByte : Obligations.EachInstructionAdvancesPastItsLastByte := by
  unfold Obligations.EachInstructionAdvancesPastItsLastByte
  intro i s t h hs
  cases i with
  | prefixW64 =>
    obtain rfl := exec_prefixW64_eq h
    exact advance_ip s 1
  | push r => exact execPush_ip_of_safe h hs
  | pop r => exact execPop_ip_of_safe h hs
  | movRmR m a b =>
    obtain rfl := Host.Outcome.next.inj h
    exact setReg_advance_ip s _ 2 (slotOf_ne_ip b)
  | movRImm32 r imm =>
    obtain rfl := Host.Outcome.next.inj h
    exact setReg_advance_ip s _ 5 (slotOf_ne_ip r)
  | movRImm64 r imm =>
    obtain rfl := Host.Outcome.next.inj h
    exact setReg_advance_ip s _ 9 (slotOf_ne_ip r)
  | ret => exact execRet_holdsWord_ip_of_safe h hs
  | illegal b =>
    obtain rfl := Host.Outcome.next.inj h
    exact not_safe_raise _ s hs

/-! ### Fetching after the prefixes (R151, R158) -/

/-- Settles O26: the bytes decode to what the fetch answers, and a turn of the activation runs it. -/
theorem stepRunsTheDecodedInstruction : Obligations.StepRunsTheDecodedInstruction := by
  unfold Obligations.StepRunsTheDecodedInstruction
  intro s t i hw hp hk hr hd he
  obtain ⟨hin, hf⟩ := fetchInstr_of_decode (s := consume s) hw hr hd
  rw [step_of_token hp hk]
  refine ⟨fun hi => activate_of_other hin hf hi he, ?_⟩
  rintro rfl
  exact activate_of_prefix hw hin hf he

/-- The bytes of a range are all the same exactly when each of them is. -/
theorem Memory.readBytes_eq_replicate {m : Memory} {a p : Nat} {b : Byte} :
    m.readBytes a p = List.replicate p b ↔ ∀ k, k < p → m.read (a + k) = b := by
  simp only [List.eq_replicate_iff, Memory.readBytes_length, true_and, List.forall_mem_iff_getElem,
    Memory.readBytes_getElem]

/-- Where the bytes at the instruction pointer are the encoding of `p` prefixes and an instruction, `p` prefixes stand there
and the instruction's encoding after them. -/
theorem prefixesAtIp_of_readBytes_eq_encodeWhole {s : State} {p n : Nat} {i : Instr}
    (hr : s.ip.toNat + n ≤ s.cfg.memSize) (h : s.mem.readBytes s.ip.toNat n = encodeWhole p i) :
    n = p + (encode i).length ∧ prefixesAtIp s p ∧
      s.mem.readBytes (s.ip.toNat + p) (encode i).length = encode i := by
  obtain rfl : n = p + (encode i).length := by simpa [encodeWhole] using congrArg List.length h
  rw [Memory.readBytes_add, encodeWhole] at h
  obtain ⟨hpre, htail⟩ := List.append_inj h (by simp)
  exact ⟨rfl, fun k hk => ⟨by omega, Memory.readBytes_eq_replicate.1 hpre k hk⟩, htail⟩

/-- After `p` prefixes a step fetches a well-formed instruction whose encoding follows them, and runs it. -/
theorem step_of_prefixes_encode {s t : State} {p : Nat} {i : Instr} (hw : s.cfg.wf) (hp : s.phase = .waiting)
    (hk : s.token = true) (hpre : prefixesAtIp s p) (hr : s.ip.toNat + p + (encode i).length ≤ s.cfg.memSize)
    (hi : i.wf (widthAfter p) = true) (hne : i ≠ .prefixW64)
    (hb : s.mem.readBytes (s.ip.toNat + p) (encode i).length = encode i)
    (he : exec i (afterPrefixes s p) = .next t) : step s = .next (finish t) := by
  have hip := afterPrefixes_ip_toNat hw hpre
  have hd : decode (widthAfter p) (s.mem.readBytes (afterPrefixes s p).ip.toNat (encode i).length) = .ok (i, []) :=
    decode_eq_ok_iff.2 ⟨hi, by rw [hip, hb, List.append_nil]⟩
  obtain ⟨hin, hf⟩ := fetchInstr_of_decode (s := afterPrefixes s p) hw (by rwa [hip]) hd
  rw [step_of_token hp hk, activate_afterPrefixes hw hpre]
  exact activate_of_other hin hf hne he

/-- Settles O27: the bytes are an encoding, so the prefixes stand at the instruction pointer and the instruction after
them. -/
theorem oneTokenRunsOneWholeInstruction : Obligations.OneTokenRunsOneWholeInstruction := by
  unfold Obligations.OneTokenRunsOneWholeInstruction
  intro s t p n i hw hp hk hr hd he
  obtain ⟨hi, hne, hbytes⟩ := decodeWhole_eq_ok_iff.1 hd
  obtain ⟨rfl, hpre, hb⟩ := prefixesAtIp_of_readBytes_eq_encodeWhole hr (hbytes.trans (List.append_nil _))
  exact step_of_prefixes_encode hw hp hk hpre (by omega) hi hne hb he

/-! ### The faults of the fetch and of an illegal byte (R157, R332) -/

/-- The scan's instruction pointer is the address `p` bytes on. -/
theorem afterPrefixes_ip_eq {s : State} {p : Nat} {a : Word} (hw : s.cfg.wf) (hpre : prefixesAtIp s p)
    (ha : a.toNat = s.ip.toNat + p) : (afterPrefixes s p).ip = a :=
  BitVec.eq_of_toNat_eq ((afterPrefixes_ip_toNat hw hpre).trans ha.symm)

/-- Settles O28: an illegal byte is its own encoding, and fault entry after the prefixes ends the activation. -/
theorem illegalOpcodeEndsInTheDecodeFault : Obligations.IllegalOpcodeEndsInTheDecodeFault := by
  unfold Obligations.IllegalOpcodeEndsInTheDecodeFault
  intro s p b a hw hp hk hpre ha hlt hb hill
  have hip := afterPrefixes_ip_eq hw hpre ha
  have hbyte : s.mem.readBytes (s.ip.toNat + p) 1 = [b] := by rw [← ha, Memory.readBytes, hb, Memory.readBytes]
  have hstep := step_of_prefixes_encode (i := .illegal b) hw hp hk hpre (ha ▸ hlt) hill (by simp) hbyte rfl
  rw [finish_of_halted (raise_phase _ _), hip] at hstep
  exact ⟨_, hstep, rfl, hip, rfl, rfl, fun _ hi => afterPrefixes_getReg s p hi, fun _ => rfl,
    by rw [notification, hp]; rfl⟩

theorem fetchInstr_of_opcode_not_inRange {s : State} (h : ¬ s.inRange s.ip 1) :
    fetchInstr s = .error (.memoryFault s.ip 1) := by
  rcases fetchInstr_cases s with ⟨-, e⟩ | ⟨hin, -⟩ | ⟨hin, -⟩
  · exact e
  · exact absurd hin h
  · exact absurd hin h

theorem fetchInstr_of_operands_not_inRange {s : State} (h1 : s.inRange s.ip 1)
    (h2 : ¬ s.inRange (s.ip + 1) s.operandCount) :
    fetchInstr s = .error (.memoryFault (s.ip + 1) s.operandCount) := by
  rcases fetchInstr_cases s with ⟨hout, -⟩ | ⟨-, -, e⟩ | ⟨-, hin, -⟩
  · exact absurd h1 hout
  · exact e
  · exact absurd hin h2

/-- A fetch that fails after `p` prefixes ends the step in its fault, with the token spent and the instruction pointer past
the prefixes. -/
theorem step_of_prefixes_fetch_error {s : State} {p : Nat} {a : Word} {f : EngineFault} (hw : s.cfg.wf)
    (hp : s.phase = .waiting) (hk : s.token = true) (hpre : prefixesAtIp s p) (ha : a.toNat = s.ip.toNat + p)
    (hf : fetchInstr (afterPrefixes s p) = .error f) :
    step s = .next (raise f ({ s with token := false }.setReg IP a)) := by
  rw [step_of_token hp hk, activate_afterPrefixes hw hpre, activate_of_error hf,
    ← afterPrefixes_ip_eq hw hpre ha, afterPrefixes_ip]
  rfl

/-- Settles O29: the first access out of range is the one of the opcode byte or, after it, the one of its operands. -/
theorem fetchOutsideMemoryFaults : Obligations.FetchOutsideMemoryFaults := by
  unfold Obligations.FetchOutsideMemoryFaults
  intro s p a hw hp hk hpre ha
  have hip := afterPrefixes_ip_eq hw hpre ha
  refine ⟨fun hout => ⟨_, step_of_prefixes_fetch_error hw hp hk hpre ha ?opcode, rfl⟩, ?operands⟩
  case opcode =>
    rw [fetchInstr_of_opcode_not_inRange (by rw [hip]; exact Nat.not_le.2 (Nat.lt_succ_of_le hout)), hip]
  case operands =>
    rintro n hin rfl hout
    have hcount : (afterPrefixes s p).operandCount = operandBytes (widthAfter p) (s.mem.read a.toNat) := by
      rw [← hip]
      rfl
    have h1 : (afterPrefixes s p).inRange (afterPrefixes s p).ip 1 := by
      rw [hip]
      exact hin
    have h2 : ¬ (afterPrefixes s p).inRange ((afterPrefixes s p).ip + 1) (afterPrefixes s p).operandCount := by
      rw [State.inRange, ip_succ_toNat (s := afterPrefixes s p) hw h1, hip, hcount]
      exact Nat.not_le.2 hout
    refine ⟨by omega, step_of_prefixes_fetch_error hw hp hk hpre ha ?_⟩
    rw [fetchInstr_of_operands_not_inRange h1 h2, hip, hcount]

/-! ### The end of an activation (R155, R156) -/

/-- An activation that takes no fault ends in the phase the boundary check gives. -/
theorem activateFrom_phase_of_safe {n : Nat} {s t : State} {w : Width} (hw : s.phase = .executing w)
    (h : activateFrom n s = .next t) (hs : t.safe) :
    t.phase = if t.ip = t.sentinel then .halted (.exited t.exitCode) else .waiting := by
  induction n generalizing s w with
  | zero =>
    rw [activateFrom_zero.1 h] at hs
    exact absurd hs (not_safe_raise _ s)
  | succ n ih =>
    rcases activateFrom_succ h with ⟨f, -, rfl⟩ | ⟨-, u, hu, ht⟩ | ⟨i, u, -, hne, hu, rfl⟩
    · exact absurd hs (not_safe_raise f s)
    · obtain rfl := exec_prefixW64_eq hu
      exact ih rfl ht
    · rcases exec_phase hne hu with hphase | ⟨f, hf⟩
      · rw [finish_of_executing (hphase.trans hw)]
        exact boundary_phase u
      · rw [finish_of_halted hf] at hs
        exact absurd hf (hs f)

/-- Settles O31: the field lemmas of `boundary` and `finish`, and for a step the lemma above. -/
theorem anActivationEndsWithTheBoundaryCheck : Obligations.AnActivationEndsWithTheBoundaryCheck := by
  unfold Obligations.AnActivationEndsWithTheBoundaryCheck
  refine ⟨fun s => ⟨⟨rfl, rfl, rfl, rfl⟩, finish_cfg s, finish_regs s, finish_mem s, finish_token s⟩,
    fun s h hs => finish_of_halted hs, fun s w hs => ?executing, fun s t hp hk h hs => ?step⟩
  case executing =>
    rw [finish_of_executing hs]
    exact boundary_phase s
  case step =>
    rw [step_of_token hp hk] at h
    obtain ⟨hcfg, htoken⟩ := activateFrom_keeps_cfg_token h
    have hphase := activateFrom_phase_of_safe (consume_phase s) h hs
    rw [State.sentinel, State.exitCode, hcfg, consume_cfg] at hphase
    have hnotice : notification s t = t.phase.notice := by rw [notification, hp]
    rw [hnotice, hphase]
    refine ⟨htoken, fun hip => ?_, fun hip => ?_⟩
    · rw [if_pos hip]
      exact ⟨rfl, rfl⟩
    · rw [if_neg hip]
      exact ⟨rfl, rfl⟩

end Sys2Proof.Machine
end

section
/-! PUSH and POP (R180, R181, R182): each in the range of its access, then one after the other, and the faults
outside the range, which RET shares with POP. -/

namespace Sys2Proof.Machine

/-! ### The frame of an instruction -/

/-- A state that differs in memory only keeps every slot. -/
theorem keepsBut_withMem (written : List Slot) (s : State) (m : Memory) : keepsBut written s { s with mem := m } :=
  ⟨rfl, rfl, rfl, fun _ _ => rfl⟩

/-- A write of a listed slot stays inside the frame. -/
theorem keepsBut.setReg {written : List Slot} {s t : State} {i : Slot} (h : keepsBut written s t) (hi : i ∈ written)
    (v : Word) : keepsBut written s (t.setReg i v) := by
  obtain ⟨hcfg, hphase, htoken, hslots⟩ := h
  refine ⟨hcfg, hphase, htoken, fun j hj => ?_⟩
  have hji : j ≠ i := fun e => hj (e ▸ hi)
  rw [getReg_setReg_ne t v hji, hslots j hj]

theorem keepsBut.advance {written : List Slot} {s t : State} (h : keepsBut written s t) (hi : IP ∈ written) (n : Nat) :
    keepsBut written s (t.advance n) :=
  h.setReg hi _

theorem getReg_advance_ne (s : State) (n : Nat) {j : Slot} (h : j ≠ IP) : (s.advance n).getReg j = s.getReg j :=
  getReg_setReg_ne s _ h

/-! ### Words in memory -/

/-- The word memory holds at an address is the only one it holds there. -/
theorem word_eq_of_holdsWord {m : Memory} {a : Nat} {v : Word} (h : holdsWord m a v) : m.word a = v := by
  have hbytes : m.readBytes a 8 = leBytes 8 v.toNat := by
    refine List.ext_getElem (by simp) fun k hk hk' => ?_
    rw [Memory.readBytes_getElem, leBytes_getElem]
    exact h k (by simpa using hk)
  have hlt : v.toNat < 256 ^ 8 := v.isLt
  rw [Memory.word, hbytes, leNat_leBytes, Nat.mod_eq_of_lt hlt, BitVec.ofNat_toNat, BitVec.setWidth_eq]

/-- A store of 8 bytes leaves the word at its address. -/
theorem holdsWord_memWrite {s t : State} {a v : Word} (hs : s.mem.wf = true)
    (h : memWrite s a 8 v.toNat = .ok t) : holdsWord t.mem a.toNat v :=
  fun _ hk => read_memWrite_stored hs h hk

/-! ### PUSH and POP in range -/

/-- Settles O6: in range PUSH is a store of `pushValue` followed by writes of the two listed slots. -/
theorem pushStoresTheRegisterBelowTheStackPointer : Obligations.PushStoresTheRegisterBelowTheStackPointer := by
  unfold Obligations.PushStoresTheRegisterBelowTheStackPointer
  intro r s hwf hlo hhi
  obtain ⟨haddr, hin⟩ := pushAddress_inRange hlo hhi
  have hstore := memWrite_of_inRange (pushValue r s).toNat hin
  have hword := holdsWord_memWrite hwf hstore
  have houtside := fun b => read_memWrite_outside (b := b) hstore
  refine ⟨_, execPush_of_inRange r hin, ?rsp, setReg_advance_ip _ _ 1 (by decide),
    hword, haddr, houtside, ?frame⟩
  case rsp => exact (getReg_advance_ne _ 1 (by decide)).trans (getReg_setReg_same ..)
  case frame => exact ((keepsBut_withMem _ s _).setReg (by simp) _).advance (by simp) 1

/-- POP writes its register and the stack pointer only. -/
theorem popInto_keepsBut (r : BitVec 3) (v : Word) (s : State) : keepsBut [slotOf r, RSP, IP] s (popInto r v s) :=
  ((keepsBut_withMem _ s s.mem).setReg (by simp) v).setReg (by simp) _

/-- Settles O7: in range POP is `popInto` of the word at the stack pointer, whose slots two lemmas give. -/
theorem popLoadsTheRegisterAndRaisesTheStackPointer : Obligations.PopLoadsTheRegisterAndRaisesTheStackPointer := by
  unfold Obligations.PopLoadsTheRegisterAndRaisesTheStackPointer
  intro r s hin
  refine ⟨_, s.mem.word (s.getReg RSP).toNat, execPop_of_inRange r hin, holdsWord_word s.mem _, fun hr => ⟨?reg, ?rsp⟩,
    fun hr => ?popRsp, ?ip, fun _ => rfl, (popInto_keepsBut r _ s).advance (by simp) 1⟩
  case reg => rw [getReg_advance_ne _ 1 (slotOf_ne_ip r), popInto_getReg_of_ne hr, if_neg hr, if_pos rfl, popAddress]
  case rsp => rw [getReg_advance_ne _ 1 (by decide), popInto_getReg_of_ne hr, if_pos rfl]
  case popRsp => rw [getReg_advance_ne _ 1 (by decide), popInto_getReg_of_rsp hr, if_pos rfl, popAddress]
  case ip =>
    rw [advance_ip, popInto_ip]
    rfl

/-! ### PUSH, then POP -/

theorem pushValue_of_rsp {r : BitVec 3} (h : slotOf r = RSP) (s : State) : pushValue r s = s.getReg RSP - 8 :=
  if_pos h

theorem pushValue_of_ne {r : BitVec 3} (h : slotOf r ≠ RSP) (s : State) : pushValue r s = s.getReg (slotOf r) :=
  if_neg h

/-- Settles O16: POP reads where PUSH stored, so the word it loads is the pushed one, and its 8 makes up for PUSH's. -/
theorem pushThenPopMovesTheValue : Obligations.PushThenPopMovesTheValue := by
  unfold Obligations.PushThenPopMovesTheValue
  intro r1 r2 s hwf hlo hhi
  obtain ⟨t, ht, hsp, -, hword, haddr, -, hcfg, -⟩ := pushStoresTheRegisterBelowTheStackPointer r1 s hwf hlo hhi
  have hpushed : holdsWord t.mem ((s.getReg RSP).toNat - 8) (pushValue r1 s) := haddr ▸ hword
  have htop : (t.getReg RSP).toNat = (s.getReg RSP).toNat - 8 := by rw [hsp]; exact haddr
  obtain ⟨u, v, hu, hv, hother, hrsp, -, hmem, -⟩ :=
    popLoadsTheRegisterAndRaisesTheStackPointer r2 t (by rw [htop, hcfg]; omega)
  have hvalue : v = pushValue r1 s := by
    rw [htop] at hv
    exact (word_eq_of_holdsWord hv).symm.trans (word_eq_of_holdsWord hpushed)
  rw [hsp, BitVec.sub_add_cancel, hvalue] at hother
  rw [hvalue] at hrsp
  refine ⟨t, u, ht, hu, fun k hk => (hmem _).trans (hpushed k hk), ?same, hother, hrsp⟩
  case same =>
    rintro rfl
    by_cases hr : slotOf r1 = RSP
    · have hback : u.getReg RSP = s.getReg RSP := by rw [hrsp hr, pushValue_of_rsp hr, BitVec.sub_add_cancel]
      exact ⟨hback, hr ▸ hback⟩
    · obtain ⟨hreg, hback⟩ := hother hr
      exact ⟨hback, hreg.trans (pushValue_of_ne hr s)⟩

/-! ### Outside the range -/

/-- Settles O18: the two bounds put the access out of range, and each meaning then takes the fault. -/
theorem stackAccessOutsideMemoryFaults : Obligations.StackAccessOutsideMemoryFaults := by
  unfold Obligations.StackAccessOutsideMemoryFaults
  intro s hw
  refine ⟨fun r hout => execPush_of_not_inRange r (pushAddress_not_inRange hw hout), fun hout => ?_⟩
  have hpop : ¬ s.inRange (popAddress s) 8 := Nat.not_le.2 hout
  exact ⟨fun r => execPop_of_not_inRange r hpop, execRet_of_not_inRange hpop⟩

end Sys2Proof.Machine
end

section
/-! MOV r/m,r and MOV r,imm (R200, R201, R202): each is a write of its register followed by `advance`. -/

namespace Sys2Proof.Machine

/-- The whole effect of a move: a register write, then an advance of the instruction pointer, which no register field
selects. -/
theorem setReg_slotOf_advance_effect {s t : State} {r : BitVec 3} {v : Word} {n : Nat}
    (ht : t = (s.setReg (slotOf r) v).advance n) :
    t.getReg (slotOf r) = v ∧ t.ip = s.ip + BitVec.ofNat 64 n ∧ keepsMemory s t ∧ keepsBut [slotOf r, IP] s t := by
  subst ht
  refine ⟨?reg, setReg_advance_ip s v n (slotOf_ne_ip r), fun _ => rfl, ?frame⟩
  case reg => exact (getReg_advance_ne _ n (slotOf_ne_ip r)).trans (getReg_setReg_same ..)
  case frame => exact ((keepsBut_withMem _ s s.mem).setReg (by simp) v).advance (by simp) n

theorem toNat_zext64 (imm : BitVec 32) : (zext64 imm).toNat = imm.toNat :=
  BitVec.toNat_setWidth_of_le (by decide)

/-- Settles O9: the value written is the source's, whatever the ModRM bits 7:6. -/
theorem movRegisterCopiesAllBits : Obligations.MovRegisterCopiesAllBits := by
  unfold Obligations.MovRegisterCopiesAllBits
  intro m src dst s
  exact ⟨_, rfl, setReg_slotOf_advance_effect rfl⟩

/-- Settles O10: the value written is the zero-extended immediate, which has the immediate's unsigned value (D3). -/
theorem movImm32ZeroExtends : Obligations.MovImm32ZeroExtends := by
  unfold Obligations.MovImm32ZeroExtends
  intro r imm s
  obtain ⟨hreg, hframe⟩ := setReg_slotOf_advance_effect (s := s) (r := r) (v := zext64 imm) (n := 5) rfl
  exact ⟨_, rfl, (congrArg BitVec.toNat hreg).trans (toNat_zext64 imm), hframe⟩

/-- Settles O11: the value written is the immediate. -/
theorem movImm64LoadsTheImmediate : Obligations.MovImm64LoadsTheImmediate := by
  unfold Obligations.MovImm64LoadsTheImmediate
  intro r imm s
  exact ⟨_, rfl, setReg_slotOf_advance_effect rfl⟩

end Sys2Proof.Machine
end

section
/-! RET (R220) in the range of its access. -/

namespace Sys2Proof.Machine

/-- Settles O8: in range RET writes the stack pointer and then, with no `advance`, the word it loaded to the instruction
pointer. -/
theorem retLoadsTheInstructionPointer : Obligations.RetLoadsTheInstructionPointer := by
  unfold Obligations.RetLoadsTheInstructionPointer
  intro s hin
  refine ⟨_, execRet_of_inRange hin, ?target, ?rsp, fun _ => rfl, ?frame⟩
  case target =>
    rw [State.ip, getReg_setReg_same]
    exact holdsWord_word s.mem _
  case rsp => exact (getReg_setReg_ne _ _ (by decide)).trans (getReg_setReg_same ..)
  case frame => exact ((keepsBut_withMem _ s s.mem).setReg (by simp) _).setReg (by simp) _

end Sys2Proof.Machine
end

section
/-! Every step answers and ends at an instruction boundary (R234, R238). -/

namespace Sys2Proof.Machine

theorem quiescent_of_waiting {s : State} (h : s.phase = .waiting) : quiescent s = true := by rw [quiescent, h]

theorem quiescent_of_halted {s : State} {e : Halt} (h : s.phase = .halted e) : quiescent s = true := by rw [quiescent, h]

theorem not_quiescent_of_executing {s : State} {w : Width} (h : s.phase = .executing w) : ¬ quiescent s = true := by
  simp [quiescent, h]

/-- At a boundary the phase is `Waiting` or `Halted`. -/
theorem quiescent_cases {s : State} (h : quiescent s = true) : s.phase = .waiting ∨ ∃ e, s.phase = .halted e := by
  cases hp : s.phase with
  | waiting => exact .inl rfl
  | executing w => exact absurd h (not_quiescent_of_executing hp)
  | halted e => exact .inr ⟨e, rfl⟩

theorem boundary_quiescent (s : State) : quiescent (boundary s) = true := by
  by_cases hs : s.ip = s.sentinel
  · exact quiescent_of_halted ((boundary_phase s).trans (if_pos hs))
  · exact quiescent_of_waiting ((boundary_phase s).trans (if_neg hs))

/-- `finish` ends at a boundary from every phase: a halted state is one, and the others get the boundary check. -/
theorem finish_quiescent (s : State) : quiescent (finish s) = true := by
  cases hp : s.phase with
  | waiting => rw [finish, hp]; exact boundary_quiescent s
  | executing w => rw [finish_of_executing hp]; exact boundary_quiescent s
  | halted e => rw [finish_of_halted hp]; exact quiescent_of_halted hp

/-- An activation ends in a fault or in `finish`, so at a boundary. -/
theorem activateFrom_quiescent {n : Nat} {s t : State} (h : activateFrom n s = .next t) : quiescent t = true := by
  induction n generalizing s with
  | zero => rw [activateFrom_zero.1 h]; exact quiescent_of_halted (raise_phase _ s)
  | succ n ih =>
    rcases activateFrom_succ h with ⟨f, -, rfl⟩ | ⟨-, u, -, ht⟩ | ⟨i, u, -, -, -, rfl⟩
    · exact quiescent_of_halted (raise_phase f s)
    · exact ih ht
    · exact finish_quiescent u

theorem step_total (s : State) : ∃ t, step s = .next t := by
  cases hp : s.phase with
  | waiting =>
    cases hk : s.token with
    | false => exact ⟨s, by simp [step, engineStep, hp, hk]⟩
    | true => rw [step_of_token hp hk]; exact activateFrom_total _ _
  | executing w => rw [step, engineStep, hp]; exact activateFrom_total _ _
  | halted e => exact ⟨s, by rw [step, engineStep, hp]⟩

/-- Settles O33: a step that answers the same state changes no token, and only `Waiting` consumes one. -/
theorem everyStepAnswersAndWaitingHoldsAllState : Obligations.EveryStepAnswersAndWaitingHoldsAllState := by
  unfold Obligations.EveryStepAnswersAndWaitingHoldsAllState
  intro s
  obtain ⟨t, ht⟩ := step_total s
  refine ⟨t, ht, ?_⟩
  rcases step_cases ht with ⟨hp, hk, -⟩ | ⟨hp, -, rfl⟩ | ⟨w, hp, ha⟩ | ⟨e, hp, rfl⟩
  · simp [hp, hk]
  · simp [hp]
  · simp [hp, (activateFrom_keeps_cfg_token ha).2]
  · simp

/-- Settles O34: a step leaves the state as it is or is an activation, which ends at a boundary. -/
theorem aStepEndsAtAnInstructionBoundary : Obligations.AStepEndsAtAnInstructionBoundary := by
  unfold Obligations.AStepEndsAtAnInstructionBoundary
  intro s t hq h
  rcases step_cases h with ⟨-, -, ha⟩ | ⟨-, -, rfl⟩ | ⟨w, -, ha⟩ | ⟨e, -, rfl⟩
  · exact activateFrom_quiescent ha
  · exact hq
  · exact activateFrom_quiescent ha
  · exact hq

end Sys2Proof.Machine
end

section
/-! The two agents (R231 to R239): when each has a move, the balance of grants and activations along a schedule, and the
activations as the only moves that change the engine's view of the state. -/

namespace Sys2Proof.Machine

/-! ### One move -/

/-- Settles O41: the two branches of `grantStep`. -/
theorem grantFillsAnEmptySlotOnly : Obligations.GrantFillsAnEmptySlotOnly := by
  unfold Obligations.GrantFillsAnEmptySlotOnly
  intro s
  refine ⟨fun hk => ⟨{ s with token := true }, ?_, rfl, rfl⟩, fun hk => ?_⟩
  · simp [grantStep, hk]
  · simp [grantStep, hk]

/-- An engine's move is one activation from the state with its token consumed, and leaves the slot empty. -/
theorem applyMove_engine_some {s t : State} (h : applyMove s .engine = some t) :
    s.phase = .waiting ∧ s.token = true ∧ activate (consume s) = .next t ∧ t.token = false := by
  rcases applyMove_cases h with ⟨hm, -, -⟩ | ⟨-, hp, hk, hs⟩
  · cases hm
  · rw [step_of_token hp hk] at hs
    exact ⟨hp, hk, hs, (activateFrom_keeps_cfg_token hs).2⟩

theorem applyMove_engine_of_empty {s : State} (h : s.token = false) : applyMove s .engine = none := by
  simp [applyMove, engineEnabled, h]

theorem applyMove_engine_of_not_waiting {s : State} (h : s.phase ≠ .waiting) : applyMove s .engine = none := by
  simp [applyMove, engineEnabled, h]

/-- Settles O32: in `Waiting` with a token the step answers, and it is the engine's move. -/
theorem theEngineConsumesATokenOnlyWhenWaiting : Obligations.TheEngineConsumesATokenOnlyWhenWaiting := by
  unfold Obligations.TheEngineConsumesATokenOnlyWhenWaiting
  intro s
  refine ⟨fun hp hk => ?_, fun _ hk => applyMove_engine_of_empty hk, fun hp => applyMove_engine_of_not_waiting hp⟩
  obtain ⟨t, ht⟩ := step_total s
  have hmove := applyMove_engine hp hk ht
  obtain ⟨-, -, hact, htoken⟩ := applyMove_engine_some hmove
  exact ⟨t, hmove, htoken, hact⟩

/-! ### Schedules -/

/-- Settles O46, by induction on the schedule: a grant fills an empty slot and an engine's move empties a full one. -/
theorem grantsAndActivationsAlternate : Obligations.GrantsAndActivationsAlternate := by
  unfold Obligations.GrantsAndActivationsAlternate
  intro ms
  induction ms with
  | nil =>
    intro s t h
    obtain rfl : s = t := by simpa using h
    rfl
  | cons m ms ih =>
    intro s t h
    obtain ⟨u, hu, hrest⟩ := runMoves_cons.1 h
    have hbal := ih u t hrest
    cases m with
    | grant =>
      rcases applyMove_cases hu with ⟨-, hk, rfl⟩ | ⟨hm, -⟩
      · simp only [moveCount_cons, hk, Bool.toNat_true, Bool.toNat_false, reduceCtorEq, if_true, if_false] at hbal ⊢
        omega
      · cases hm
    | engine =>
      obtain ⟨-, hk, -, hk'⟩ := applyMove_engine_some hu
      simp only [moveCount_cons, hk, hk', Bool.toNat_true, Bool.toNat_false, reduceCtorEq, if_true, if_false] at hbal ⊢
      omega

@[simp] theorem engineView_withToken (s : State) (b : Bool) : ({ s with token := b } : State).engineView = s.engineView := rfl
@[simp] theorem consume_withToken (s : State) (b : Bool) : consume { s with token := b } = consume s := rfl

/-- A schedule without activations leaves what the engine sees alone. -/
theorem engineView_of_no_activation {ms : List Move} {s t : State} (h : runMoves ms s = some t)
    (hn : moveCount .engine ms = 0) : t.engineView = s.engineView := by
  induction ms generalizing s with
  | nil =>
    obtain rfl : s = t := by simpa using h
    rfl
  | cons m ms ih =>
    obtain ⟨u, hu, hrest⟩ := runMoves_cons.1 h
    cases m with
    | grant =>
      rcases applyMove_cases hu with ⟨-, -, rfl⟩ | ⟨hm, -⟩
      · exact (ih hrest hn).trans (engineView_withToken s true)
      · cases hm
    | engine => simp [moveCount_cons] at hn

/-- The first activation of a schedule starts from the schedule's own start with the token consumed: the grants before it
only fill the slot. The rest is a schedule with one activation less. -/
theorem exists_first_activation {ms : List Move} {s t : State} {k : Nat} (h : runMoves ms s = some t)
    (hk : moveCount .engine ms = k + 1) :
    s.phase = .waiting ∧ ∃ u ms', activate (consume s) = .next u ∧ runMoves ms' u = some t ∧ moveCount .engine ms' = k := by
  induction ms generalizing s with
  | nil => simp at hk
  | cons m ms ih =>
    obtain ⟨u, hu, hrest⟩ := runMoves_cons.1 h
    cases m with
    | grant =>
      rcases applyMove_cases hu with ⟨-, -, rfl⟩ | ⟨hm, -⟩
      · obtain ⟨hp, hfirst⟩ := ih hrest hk
        rw [consume_withToken] at hfirst
        exact ⟨hp, hfirst⟩
      · cases hm
    | engine =>
      obtain ⟨hp, -, hact, -⟩ := applyMove_engine_some hu
      exact ⟨hp, u, ms, hact, hrest, by simpa [moveCount_cons] using hk⟩

theorem no_activation_of_halted {ms : List Move} {s t : State} {e : Halt} (hs : s.phase = .halted e)
    (h : runMoves ms s = some t) : moveCount .engine ms = 0 := by
  cases hk : moveCount .engine ms with
  | zero => rfl
  | succ k =>
    obtain ⟨hp, -⟩ := exists_first_activation h hk
    simp [hs] at hp

/-- Settles O43: with no activation the balance says the grants and the token at the start are the token at the end. -/
theorem aHaltedMachineKeepsItsToken : Obligations.AHaltedMachineKeepsItsToken := by
  unfold Obligations.AHaltedMachineKeepsItsToken
  intro ms s t e hs h
  have hbal := grantsAndActivationsAlternate ms s t h
  rw [no_activation_of_halted hs h] at hbal
  have hone : t.token.toNat ≤ 1 := Bool.toNat_le t.token
  refine ⟨by omega, fun hk => ?_, fun hgrant => ⟨?_, ?_⟩⟩
  · rw [hk, Bool.toNat_true] at hbal
    exact Bool.toNat_eq_one.1 (by omega)
  · exact Bool.toNat_eq_zero.1 (by omega)
  · exact Bool.toNat_eq_one.1 (by omega)

theorem consume_eq_of_engineView {s s' : State} (h : s.engineView = s'.engineView) : consume s = consume s' := by
  obtain ⟨hcfg, hregs, hmem, -⟩ := EngineView.mk.inj h
  simp [consume, hcfg, hregs, hmem]

/-- Settles O47, by induction on the number of activations: the first one starts from the same state in both runs. -/
theorem theResultDoesNotDependOnTheDriver : Obligations.TheResultDoesNotDependOnTheDriver := by
  unfold Obligations.TheResultDoesNotDependOnTheDriver
  intro ms ms' s s' t t' hv h h' hcount
  induction hk : moveCount .engine ms generalizing ms ms' s s' with
  | zero =>
    calc t.engineView = s.engineView := engineView_of_no_activation h hk
      _ = s'.engineView := hv
      _ = t'.engineView := (engineView_of_no_activation h' (hcount.symm.trans hk)).symm
  | succ k ih =>
    obtain ⟨-, u, ns, hact, hrun, hns⟩ := exists_first_activation h hk
    obtain ⟨-, u', ns', hact', hrun', hns'⟩ := exists_first_activation h' (hcount.symm.trans hk)
    rw [consume_eq_of_engineView hv, hact', Host.Outcome.next.injEq] at hact
    subst hact
    exact ih ns ns' u' u' rfl hrun hrun' (hns.trans hns'.symm) hns

/-! ### The single-step driver's command (R236, R237) -/

/-- In `Waiting` with an empty slot a command is a grant and the engine's move on it. -/
theorem stepCommand_of_waiting {s t : State} (hp : s.phase = .waiting) (hk : s.token = false)
    (hact : activate (consume s) = .next t) : stepCommand s = t ∧ runMoves [.grant, .engine] s = some t := by
  have hgrant := applyMove_grant hk
  have hstep : step { s with token := true } = .next t := (step_of_token (s := { s with token := true }) hp rfl).trans hact
  have hengine : applyMove { s with token := true } .engine = some t := applyMove_engine hp rfl hstep
  constructor
  · simp [stepCommand, hgrant, hengine]
  · simp [runMoves_cons, hgrant, hengine]

/-- In a halted machine a command does nothing, since the engine has no move on a token (notes/assumptions/26.md). -/
theorem stepCommand_of_halted {s : State} {e : Halt} (hs : s.phase = .halted e) : stepCommand s = s := by
  have hengine : ∀ u, applyMove s .grant = some u → applyMove u .engine = none := by
    intro u hu
    rcases applyMove_cases hu with ⟨-, -, rfl⟩ | ⟨hm, -⟩
    · exact applyMove_engine_of_not_waiting (by simp [hs])
    · cases hm
  rw [stepCommand, Option.bind_eq_none_iff.2 hengine]
  rfl

theorem runCommands_of_halted {s : State} {e : Halt} (hs : s.phase = .halted e) (k : Nat) : runCommands k s = s := by
  induction k with
  | zero => rfl
  | succ k ih => rw [runCommands, stepCommand_of_halted hs, ih]

/-- Settles O45, by induction on the number of commands: from `Waiting` each is one grant and one activation, and once
halted none is either. -/
theorem eachStepCommandIsOneTokenAndOneActivation : Obligations.EachStepCommandIsOneTokenAndOneActivation := by
  unfold Obligations.EachStepCommandIsOneTokenAndOneActivation
  intro k
  induction k with
  | zero => exact fun s _ _ => ⟨[], rfl, rfl, Nat.le_refl 0, fun _ => rfl⟩
  | succ k ih =>
    intro s hk hq
    rcases quiescent_cases hq with hp | ⟨e, he⟩
    · obtain ⟨t, hact⟩ := activateFrom_total (consume s).bytesLeft (consume s)
      obtain ⟨hcommand, hfirst⟩ := stepCommand_of_waiting hp hk hact
      obtain ⟨ms, hrun, heq, hle, hwaiting⟩ := ih t (activateFrom_keeps_cfg_token hact).2 (activateFrom_quiescent hact)
      rw [runCommands, hcommand]
      refine ⟨[.grant, .engine] ++ ms, runMoves_append.2 ⟨t, hfirst, hrun⟩, ?_⟩
      simp only [moveCount_append, moveCount_cons, moveCount_nil, reduceCtorEq, if_true, if_false]
      exact ⟨by omega, by omega, fun hend => by have := hwaiting hend; omega⟩
    · rw [runCommands_of_halted he]
      exact ⟨[], rfl, rfl, Nat.zero_le _, fun hp => by simp [he] at hp⟩

end Sys2Proof.Machine
end

section
/-! The ELF loader (R260 to R277): the turns of the symbol lookup, the lookup from the first entry on, the entry point, and
what `load` makes of it. -/

namespace Sys2Proof.Machine

/-! ### One entry of the symbol table (R264, R266) -/

/-- Entry `k` stops the lookup with malformed-image: it lies partly outside the image, or it is a global function whose name
cannot be read (R262, R264). -/
def entryUnreadable (image : Image) (tab str : Section) (k : Nat) : Prop :=
  image.length < tab.entryOffset k + 24 ∨
    (globalFunction (image.byte (tab.entryOffset k + 4)) = true ∧
      image.nameAt str (image.num (tab.entryOffset k) 4) = none)

/-- The value of entry `k` (R266). -/
def Image.entryValue (image : Image) (tab : Section) (k : Nat) : Word :=
  BitVec.ofNat 64 (image.num (tab.entryOffset k + 8) 8)

section
variable {image : Image} {tab str : Section} {name : List Byte} {n k : Nat}

/-- Each entry either lets the lookup go on, or ends it with a value or with an error. -/
theorem entry_cases (image : Image) (tab str : Section) (name : List Byte) (k : Nat) :
    entryPassedOver image tab str name k ∨
    (tab.entryOffset k + 24 ≤ image.length ∧ entryMatches image tab str name k) ∨
    entryUnreadable image tab str k := by
  by_cases hin : tab.entryOffset k + 24 ≤ image.length
  · by_cases hg : globalFunction (image.byte (tab.entryOffset k + 4)) = true
    · cases hname : image.nameAt str (image.num (tab.entryOffset k) 4) with
      | none => exact .inr (.inr (.inr ⟨hg, hname⟩))
      | some found =>
        by_cases heq : found = name
        · exact .inr (.inl ⟨hin, hg, heq ▸ hname⟩)
        · exact .inl ⟨hin, fun _ => ⟨found, hname, heq⟩⟩
    · exact .inl ⟨hin, fun h => absurd h hg⟩
  · exact .inr (.inr (.inl (Nat.not_le.1 hin)))

theorem entryPassedOver.not_matches (h : entryPassedOver image tab str name k) : ¬ entryMatches image tab str name k := by
  rintro ⟨hg, hname⟩
  obtain ⟨other, hother, hne⟩ := h.2 hg
  exact hne (Option.some.inj (hother.symm.trans hname))

theorem Image.findSymbol_of_matches (hin : tab.entryOffset k + 24 ≤ image.length)
    (h : entryMatches image tab str name k) :
    image.findSymbol tab str name (n + 1) k = .ok (some (image.entryValue tab k)) := by
  obtain ⟨hg, hname⟩ := h
  simp [findSymbol_succ, Nat.not_lt.2 hin, hg, hname, entryValue]

theorem Image.findSymbol_of_unreadable (h : entryUnreadable image tab str k) :
    image.findSymbol tab str name (n + 1) k = .error .malformedImage := by
  rw [findSymbol_succ]
  rcases h with hout | ⟨hg, hname⟩
  · exact if_pos hout
  · simp [hg, hname]

/-! ### The lookup from the first entry on (R266, R268) -/

/-- Entries that are passed over bring the lookup to the next one. -/
theorem Image.findSymbol_reaches (hk : k < n) (h : ∀ j, j < k → entryPassedOver image tab str name j) :
    ∃ left, image.findSymbol tab str name n 0 = image.findSymbol tab str name (left + 1) k := by
  obtain ⟨left, rfl⟩ : ∃ left, n = k + (left + 1) := ⟨n - k - 1, by omega⟩
  refine ⟨left, ?_⟩
  rw [findSymbol_passedOver k (left + 1) 0 fun j _ hj => h j (by omega), Nat.zero_add]

theorem Image.findSymbol_of_all_passedOver (h : ∀ j, j < n → entryPassedOver image tab str name j) :
    image.findSymbol tab str name n 0 = .ok none :=
  findSymbol_passedOver n 0 0 fun j _ hj => h j (by omega)

/-- What the lookup through `n` entries can do: pass over all of them, or end at the first that is not passed over, with its
value or with malformed-image. -/
theorem Image.findSymbol_cases (image : Image) (tab str : Section) (name : List Byte) (n : Nat) :
    ((∀ j, j < n → entryPassedOver image tab str name j) ∧ image.findSymbol tab str name n 0 = .ok none) ∨
    ∃ k, k < n ∧ (∀ j, j < k → entryPassedOver image tab str name j) ∧
      ((tab.entryOffset k + 24 ≤ image.length ∧ entryMatches image tab str name k ∧
          image.findSymbol tab str name n 0 = .ok (some (image.entryValue tab k))) ∨
        (entryUnreadable image tab str k ∧ image.findSymbol tab str name n 0 = .error .malformedImage)) := by
  classical
  by_cases hall : ∀ j, j < n → entryPassedOver image tab str name j
  · exact .inl ⟨hall, findSymbol_of_all_passedOver hall⟩
  · push Not at hall
    have hbefore : ∀ j, j < Nat.find hall → entryPassedOver image tab str name j := fun j hj => by
      by_contra hnot
      exact Nat.find_min hall hj ⟨hj.trans (Nat.find_spec hall).1, hnot⟩
    obtain ⟨hk, hstop⟩ := Nat.find_spec hall
    obtain ⟨left, hreach⟩ := findSymbol_reaches hk hbefore
    refine .inr ⟨_, hk, hbefore, ?_⟩
    rcases entry_cases image tab str name (Nat.find hall) with hpass | ⟨hin, hmatch⟩ | hbad
    · exact absurd hpass hstop
    · exact .inl ⟨hin, hmatch, hreach.trans (findSymbol_of_matches hin hmatch)⟩
    · exact .inr ⟨hbad, hreach.trans (findSymbol_of_unreadable hbad)⟩

end

/-! ### The entry point (R265) -/

section
variable {image : Image} {name : List Byte} {i k : Nat}

/-- The lookup in the symbol table that is section `i`, whose string table is the section it names. -/
def Image.lookupIn (image : Image) (i : Nat) (name : List Byte) : Except LoadError (Option Word) :=
  image.findSymbol (image.header i) (image.header (image.header i).link) name ((image.header i).size / 24) 0

theorem Image.find?_symbolTable (hi : firstSection image (· = 2) i) :
    image.sections.find? (fun h => h.type = 2) = some (image.header i) :=
  Image.find?_sections_of_first (holds := (· = 2)) hi

theorem Image.entryPoint_eq_lookupIn (hi : firstSection image (· = 2) i) (hl : (image.header i).link < image.shnum) :
    image.entryPoint name = image.lookupIn i name := by
  simp [Image.entryPoint, Image.find?_symbolTable hi, Image.sections_getElem?, hl, Image.lookupIn]

theorem Image.entryPoint_of_link_past_sections (hi : firstSection image (· = 2) i)
    (hl : image.shnum ≤ (image.header i).link) : image.entryPoint name = .error .malformedImage := by
  simp [Image.entryPoint, Image.find?_symbolTable hi, Image.sections_getElem?, Nat.not_lt.2 hl]

theorem Image.entryPoint_of_no_symbolTable (h : ∀ i, i < image.shnum → (image.header i).type ≠ 2) :
    image.entryPoint name = .ok none := by
  have hnone : image.sections.find? (fun h => h.type = 2) = none := by
    simpa [List.find?_eq_none, Image.sections] using h
  rw [Image.entryPoint, hnone]

/-- The only error of the search for the entry point. -/
theorem Image.entryPoint_error {e : LoadError} (h : image.entryPoint name = .error e) : e = .malformedImage := by
  cases htab : image.sections.find? (fun h => h.type = 2) with
  | none => simp [Image.entryPoint, htab] at h
  | some tab =>
    obtain ⟨i, hi, -⟩ := Image.find?_sections (holds := (· = 2)) htab
    by_cases hl : (image.header i).link < image.shnum
    · rw [entryPoint_eq_lookupIn hi hl, lookupIn] at h
      rcases findSymbol_cases image (image.header i) (image.header (image.header i).link) name
        ((image.header i).size / 24) with ⟨-, hr⟩ | ⟨k, -, -, ⟨-, -, hr⟩ | ⟨-, hr⟩⟩
      · simp [hr] at h
      · simp [hr] at h
      · exact (Except.error.inj (hr.symm.trans h)).symm
    · rw [entryPoint_of_link_past_sections hi (Nat.not_lt.1 hl)] at h
      exact (Except.error.inj h).symm

/-- A symbol table is itself a section of non-null type, so a load address is never missing once a symbol was found
(R271). -/
theorem Image.find?_nonNull_of_symbolTable (hi : firstSection image (· = 2) i) :
    ∃ first, image.sections.find? (fun h => h.type ≠ 0) = some first := by
  have htype : (image.header i).type = 2 := of_decide_eq_true hi.2.1
  rw [← Option.isSome_iff_exists, List.find?_isSome]
  exact ⟨image.header i, List.mem_map.2 ⟨i, List.mem_range.2 hi.1, rfl⟩, by simp [htype]⟩

/-! ### `load` by its outcome (R262, R268, R271) -/

theorem load_of_not_acceptable (ha : image.acceptable ≠ true) : load image name = .error .malformedImage := if_neg ha

theorem load_of_entryPoint_error {e : LoadError} (ha : image.acceptable = true) (h : image.entryPoint name = .error e) :
    load image name = .error e := by
  simp [load, ha, h]

theorem load_of_entryPoint_none (ha : image.acceptable = true) (h : image.entryPoint name = .ok none) :
    load image name = .error .entryNotFound := by
  simp [load, ha, h]

theorem load_of_entryPoint_some {entry : Word} (ha : image.acceptable = true)
    (h : image.entryPoint name = .ok (some entry)) : ∃ p, load image name = .ok p := by
  obtain ⟨i, hi, -, -⟩ := Image.entryPoint_some h
  obtain ⟨first, hfirst⟩ := Image.find?_nonNull_of_symbolTable hi
  exact ⟨{ loadAddress := first.bias, entryPoint := entry, imageBytes := image }, by rw [load, if_pos ha, h, hfirst]⟩

/-- An unreadable entry that the lookup reaches is malformed-image. -/
theorem load_of_unreadable (ha : image.acceptable = true) (hi : firstSection image (· = 2) i)
    (hl : (image.header i).link < image.shnum) (hk : k < (image.header i).size / 24)
    (hbefore : ∀ j, j < k → entryPassedOver image (image.header i) (image.header (image.header i).link) name j)
    (hbad : entryUnreadable image (image.header i) (image.header (image.header i).link) k) :
    load image name = .error .malformedImage := by
  obtain ⟨left, hreach⟩ := Image.findSymbol_reaches hk hbefore
  refine load_of_entryPoint_error ha ?_
  rw [Image.entryPoint_eq_lookupIn hi hl, Image.lookupIn, hreach, Image.findSymbol_of_unreadable hbad]

/-- The bytes the magic, class and byte-order checks of an accepted image find, with the two checks of its section header
table. -/
theorem Image.acceptable_checks (h : image.acceptable = true) :
    64 ≤ image.length ∧ image.take 4 = [0x7F, 0x45, 0x4C, 0x46] ∧ image[4]? = some 2 ∧ image[5]? = some 1 ∧
      (image.shnum = 0 ∨ image.shentsize = 64) ∧ image.shoff + 64 * image.shnum ≤ image.length := by
  simp only [Image.acceptable, Bool.and_eq_true, Bool.or_eq_true, decide_eq_true_eq] at h
  obtain ⟨⟨⟨⟨⟨hlen, hmagic⟩, hclass⟩, horder⟩, hsize⟩, htable⟩ := h
  refine ⟨hlen, hmagic, ?_, ?_, hsize, htable⟩
  · rw [Image.getElem?_eq_byte (by omega), hclass]
  · rw [Image.getElem?_eq_byte (by omega), horder]

end

/-! ### The obligations -/

/-- Settles O49: a value the lookup answers is that of its first entry not passed over, and such an entry is the first
match. -/
theorem loadedProcessComesFromTheFirstMatch : Obligations.LoadedProcessComesFromTheFirstMatch := by
  unfold Obligations.LoadedProcessComesFromTheFirstMatch
  intro image name p hload
  obtain ⟨ha, entry, hentry, first, hfirst, rfl⟩ := load_ok hload
  refine ⟨ha, rfl, ?_, ?_⟩
  · obtain ⟨i, hi, hl, hfound⟩ := Image.entryPoint_some hentry
    refine ⟨i, hi, hl, ?_⟩
    rcases Image.findSymbol_cases image (image.header i) (image.header (image.header i).link) name
      ((image.header i).size / 24) with ⟨-, hr⟩ | ⟨k, hk, hbefore, ⟨hin, hmatch, hr⟩ | ⟨-, hr⟩⟩
    · simp [hr] at hfound
    · have hvalue : image.entryValue (image.header i) k = entry := by simpa [hr] using hfound
      exact ⟨k, hk, hin, hmatch, fun j hj => (hbefore j hj).not_matches, hvalue.symm⟩
    · simp [hr] at hfound
  · obtain ⟨i, hi, rfl⟩ := Image.find?_sections (holds := (· ≠ 0)) hfirst
    exact ⟨i, hi, rfl⟩

/-- Settles O50: the lookup cannot pass over entry `k`, and no entry up to it is unreadable, so it ends at a match. -/
theorem anImageWithAMatchLoads : Obligations.AnImageWithAMatchLoads := by
  unfold Obligations.AnImageWithAMatchLoads
  intro image name i k ha hi hl hk hin hmatch hreadable
  rcases Image.findSymbol_cases image (image.header i) (image.header (image.header i).link) name
    ((image.header i).size / 24) with ⟨hall, -⟩ | ⟨m, -, hbefore, ⟨-, -, hr⟩ | ⟨hbad, -⟩⟩
  · exact absurd hmatch (hall k hk).not_matches
  · exact load_of_entryPoint_some ha ((Image.entryPoint_eq_lookupIn hi hl).trans hr)
  · exfalso
    have hmk : m ≤ k := Nat.not_lt.1 fun h => (hbefore k h).not_matches hmatch
    rcases hbad with hout | ⟨hg, hnone⟩
    · simp only [Section.entryOffset] at hin hout
      omega
    · obtain rfl | hlt := Nat.eq_or_lt_of_le hmk
      · simp [hmatch.2] at hnone
      · obtain ⟨other, hother⟩ := hreadable m hlt hg
        simp [hother] at hnone

/-- Settles O51: each case contradicts a check of an accepted image. -/
theorem aBadHeaderIsMalformed : Obligations.ABadHeaderIsMalformed := by
  unfold Obligations.ABadHeaderIsMalformed
  intro image name hbad
  refine load_of_not_acceptable fun ha => ?_
  obtain ⟨hlen, hmagic, hclass, horder, hsize, htable⟩ := Image.acceptable_checks ha
  rcases hbad with h | h | h | h | ⟨hpos, h⟩ | h
  · omega
  · exact h hmagic
  · exact h hclass
  · exact h horder
  · exact hsize.elim (Nat.ne_of_gt hpos) h
  · omega

/-- Settles O52, by the outcome of the search for the entry point. -/
theorem noLoadableSectionIsNeverReported : Obligations.NoLoadableSectionIsNeverReported := by
  unfold Obligations.NoLoadableSectionIsNeverReported
  refine fun image name => ⟨?_, fun ha h => load_of_entryPoint_none ha (Image.entryPoint_of_no_symbolTable h)⟩
  by_cases ha : image.acceptable = true
  · match hentry : image.entryPoint name with
    | .error e => simp [load_of_entryPoint_error ha hentry, Image.entryPoint_error hentry]
    | .ok none => simp [load_of_entryPoint_none ha hentry]
    | .ok (some entry) =>
      obtain ⟨p, hp⟩ := load_of_entryPoint_some ha hentry
      simp [hp]
  · simp [load_of_not_acceptable ha]

/-- Settles O53: a lookup that passes over every entry finds none, and what loads has a match. -/
theorem anImageWithNoMatchIsEntryNotFound : Obligations.AnImageWithNoMatchIsEntryNotFound := by
  unfold Obligations.AnImageWithNoMatchIsEntryNotFound
  constructor
  · intro image name i ha hi hl hall
    exact load_of_entryPoint_none ha
      ((Image.entryPoint_eq_lookupIn hi hl).trans (Image.findSymbol_of_all_passedOver hall))
  · intro image name hnone
    cases hload : load image name with
    | error e => exact ⟨e, rfl⟩
    | ok p =>
      obtain ⟨-, -, ⟨i, hi, -, k, hk, -, hmatch, -⟩, -⟩ := loadedProcessComesFromTheFirstMatch image name p hload
      exact absurd hmatch (hnone i k hi hk)

/-- Settles O54: the string table's index is looked at before any entry, and the lookup reaches entry `k`. -/
theorem aLookupThatRunsOutsideIsMalformed : Obligations.ALookupThatRunsOutsideIsMalformed := by
  unfold Obligations.ALookupThatRunsOutsideIsMalformed
  intro image name i ha hi
  refine ⟨fun hl => load_of_entryPoint_error ha (Image.entryPoint_of_link_past_sections hi hl), ?_⟩
  intro hl k hk hbefore
  exact ⟨fun hout => load_of_unreadable ha hi hl hk hbefore (.inl hout),
    fun _ hg hname => load_of_unreadable ha hi hl hk hbefore (.inr ⟨hg, Image.nameAt_eq_none.2 hname⟩)⟩

end Sys2Proof.Machine
end

section
/-! The host's queries (R241, R305, R306, R30): by index, by memory range, and by name in either column of R30. -/

namespace Sys2Proof.Machine

/-! ### A register by index (R305) -/

theorem getRegister_of_executing {s : State} {w : Width} (h : s.phase = .executing w) (n : Nat) :
    getRegister s n = .notEnabled := by
  rw [getRegister, if_neg (not_quiescent_of_executing h)]

theorem getRegister_of_lt {s : State} {n : Nat} (hq : quiescent s = true) (hn : n < 18) :
    getRegister s n = .value (s.getReg ⟨n, hn⟩) := by
  rw [getRegister, if_pos hq, dif_pos hn]

/-! ### A range of memory (R306) -/

theorem readMemory_of_executing {s : State} {w : Width} (h : s.phase = .executing w) (first count : Word) :
    readMemory s first count = .notEnabled := by
  rw [readMemory, if_neg (not_quiescent_of_executing h)]

theorem readMemory_of_inRange {s : State} {first count : Word} (hq : quiescent s = true)
    (h : s.inRange first count.toNat) :
    readMemory s first count = .value (s.mem.readBytes first.toNat count.toNat) := by
  rw [readMemory, if_pos hq, if_pos h]

theorem readMemory_of_not_inRange {s : State} {first count : Word} (hq : quiescent s = true)
    (h : ¬ s.inRange first count.toNat) : readMemory s first count = .refused := by
  rw [readMemory, if_pos hq, if_neg h]

theorem Memory.readBytes_eq_map_range (m : Memory) (a n : Nat) :
    m.readBytes a n = (List.range n).map fun k => m.read (a + k) :=
  List.ext_getElem (by simp) fun k hk _ => by simp [Memory.readBytes_getElem m a n k hk]

/-- Settles O48: the phase decides whether a query is enabled, and the index or the range whether it is refused. -/
theorem queriesAnswerWhenQuiescentAndInRange : Obligations.QueriesAnswerWhenQuiescentAndInRange := by
  unfold Obligations.QueriesAnswerWhenQuiescentAndInRange
  intro s
  refine ⟨fun w hw => ⟨getRegister_of_executing hw, readMemory_of_executing hw⟩, fun hq => ?_⟩
  refine ⟨fun i hi => getRegister_of_lt hq hi, fun i hi => getRegister_of_out_of_range hq hi,
    fun a n hout => readMemory_of_not_inRange hq (Nat.not_le.2 hout), fun a n hin => ?_⟩
  rw [readMemory_of_inRange hq hin, Memory.readBytes_eq_map_range]

/-! ### A register by name (R30, R305) -/

/-- No name of R30's two columns stands for two slots. -/
theorem lookup_slotNames_of_mem : ∀ p ∈ slotNames, slotNames.lookup p.1 = some p.2 := by decide

theorem getRegisterByName_of_mem {s : State} {name : String} {i : Slot} (hq : quiescent s = true)
    (h : (name, i) ∈ slotNames) : getRegisterByName s name = .value (s.getReg i) := by
  rw [getRegisterByName, lookup_slotNames_of_mem _ h]
  exact getRegister_of_lt hq i.isLt

theorem getRegisterByName_of_not_mem {s : State} {name : String} (hq : quiescent s = true)
    (h : name ∉ slotNames.map Prod.fst) : getRegisterByName s name = .refused := by
  have hnone : slotNames.lookup name = none := by
    rw [List.lookup_eq_none_iff]
    exact fun p hp => bne_iff_ne.2 fun heq => h (heq ▸ List.mem_map_of_mem hp)
  rw [getRegisterByName, hnone]
  exact if_pos hq

theorem getRegisterByName_of_executing {s : State} {w : Width} (h : s.phase = .executing w) (name : String) :
    getRegisterByName s name = .notEnabled := by
  unfold getRegisterByName
  split
  · exact getRegister_of_executing h _
  · exact if_neg (not_quiescent_of_executing h)

/-- A name of a column stands for the slot it is at in the column. -/
theorem mem_zip_finRange_of_getElem? {column : List String} {name : String} {i : Slot}
    (h : column[i.val]? = some name) : (name, i) ∈ column.zip (List.finRange 18) := by
  refine List.mem_of_getElem? (i := i.val) ?_
  rw [List.getElem?_zip_eq_some]
  exact ⟨h, by simp⟩

/-- Settles O55: `slotNames` is the two columns, each along the slots in order. -/
theorem registerNamesAnswerTheirSlots : Obligations.RegisterNamesAnswerTheirSlots := by
  unfold Obligations.RegisterNamesAnswerTheirSlots
  intro sourceNames specNames s
  have hpairs : slotNames = sourceNames.zip (List.finRange 18) ++ specNames.zip (List.finRange 18) := rfl
  have hnames : slotNames.map Prod.fst = sourceNames ++ specNames := rfl
  refine ⟨fun hq => ⟨fun i name h => ?_, fun name hsource hspec => ?_⟩,
    fun w name hw => getRegisterByName_of_executing hw name⟩
  · have hmem : (name, i) ∈ slotNames := by
      rw [hpairs, List.mem_append]
      exact h.imp mem_zip_finRange_of_getElem? mem_zip_finRange_of_getElem?
    exact getRegisterByName_of_mem hq hmem
  · refine getRegisterByName_of_not_mem hq ?_
    rw [hnames, List.mem_append]
    exact not_or.2 ⟨hsource, hspec⟩

end Sys2Proof.Machine
end

section
/-! Faults (R335 to R341): the fault each instruction can take, what a fault leaves as it was, and that it is never left. -/

namespace Sys2Proof.Machine

/-! ### Fault entry (R338) -/

/-- Settles O17: the field lemmas of `raise`; a fault entered from a phase that is not halted is notified. -/
theorem faultEntrySetsThePhaseOnly : Obligations.FaultEntrySetsThePhaseOnly := by
  unfold Obligations.FaultEntrySetsThePhaseOnly
  intro f s
  refine ⟨raise_phase f s, raise_cfg f s, raise_regs f s, raise_mem f s, raise_token f s, fun hs => ?_⟩
  cases hp : s.phase with
  | waiting => rw [notification, hp]; rfl
  | executing w => rw [notification, hp]; rfl
  | halted h => exact absurd hp (hs h)

/-! ### The fault of each instruction (R335) -/

section
variable {s t : State} {w : Width} {f : EngineFault}

/-- Where fault entry is the outcome, the fault in the phase is the one taken. -/
theorem eq_raise_of_next_raise {g : EngineFault} (h : (.next (raise g s) : Host.Outcome State Fault Refusal) = .next t)
    (hf : t.phase = .halted (.faulted f)) : t = raise f s ∧ f = g := by
  obtain rfl := Host.Outcome.next.inj h
  cases hf
  exact ⟨rfl, rfl⟩

/-- An outcome that keeps the phase of an activation is not faulted. -/
theorem not_faulted_of_phase_kept {o : Host.Outcome State Fault Refusal} (hw : s.phase = .executing w)
    (h : o = .next t) (hkept : ∃ u, o = .next u ∧ u.phase = s.phase) : t.phase ≠ .halted (.faulted f) := by
  obtain ⟨u, rfl, hu⟩ := hkept
  obtain rfl := Host.Outcome.next.inj h
  simp [hu, hw]

/-- An outcome that depends on one access, and keeps the phase where that is in range, is faulted only by that access. -/
theorem faulted_only_by_access {o : Host.Outcome State Fault Refusal} {a : Word} {n : Nat} (hw : s.phase = .executing w)
    (hin : s.inRange a n → ∃ u, o = .next u ∧ u.phase = s.phase)
    (hout : ¬ s.inRange a n → o = .next (raise (.memoryFault a n) s))
    (h : o = .next t) (hf : t.phase = .halted (.faulted f)) :
    t = raise f s ∧ f = .memoryFault a n ∧ s.cfg.memSize < a.toNat + n := by
  by_cases hr : s.inRange a n
  · exact absurd hf (not_faulted_of_phase_kept hw h (hin hr))
  · obtain ⟨ht, hfault⟩ := eq_raise_of_next_raise ((hout hr).symm.trans h) hf
    exact ⟨ht, hfault, Nat.not_le.1 hr⟩

end

/-- Settles O19: PUSH, POP and RET depend on one access each, `illegal` is fault entry, and the others keep the activation
going. -/
theorem eachInstructionTakesOnlyItsOwnFault : Obligations.EachInstructionTakesOnlyItsOwnFault := by
  unfold Obligations.EachInstructionTakesOnlyItsOwnFault
  intro i s t w f hw h hf
  cases i with
  | prefixW64 =>
    obtain rfl := exec_prefixW64_eq h
    cases hf
  | push r =>
    exact faulted_only_by_access hw (fun hr => ⟨_, execPush_of_inRange r hr, rfl⟩) (execPush_of_not_inRange r) h hf
  | pop r =>
    exact faulted_only_by_access hw (fun hr => ⟨_, execPop_of_inRange r hr, rfl⟩) (execPop_of_not_inRange r) h hf
  | ret =>
    exact faulted_only_by_access hw (fun hr => ⟨_, execRet_of_inRange hr, rfl⟩) execRet_of_not_inRange h hf
  | illegal b => exact eq_raise_of_next_raise h hf
  | movRmR m a b => exact absurd hf (not_faulted_of_phase_kept hw h ⟨_, rfl, rfl⟩)
  | movRImm32 r imm => exact absurd hf (not_faulted_of_phase_kept hw h ⟨_, rfl, rfl⟩)
  | movRImm64 r imm => exact absurd hf (not_faulted_of_phase_kept hw h ⟨_, rfl, rfl⟩)

/-! ### Faults are precise (R339, R340) -/

/-- From `s` to `t` the instruction pointer moved over `p` prefixes, and every other slot and memory stayed as they were. -/
structure MovedOverPrefixes (s t : State) (p : Nat) : Prop where
  prefixes : prefixesAtIp s p
  ip : t.ip.toNat = s.ip.toNat + p
  slots : ∀ i, i ≠ IP → t.getReg i = s.getReg i
  mem : t.mem = s.mem

theorem movedOverPrefixes_raise (f : EngineFault) (s : State) : MovedOverPrefixes s (raise f s) 0 :=
  ⟨fun _ hk => absurd hk (Nat.not_lt_zero _), rfl, fun _ _ => rfl, rfl⟩

/-- One prefix before the `p` that moved the instruction pointer makes `p + 1`. -/
theorem MovedOverPrefixes.of_prefix {s u t : State} {p : Nat} (hw : s.cfg.wf) (hin : s.inRange s.ip 1)
    (hb : s.mem.read s.ip.toNat = 0x48) (hu : exec .prefixW64 s = .next u) (h : MovedOverPrefixes u t p) :
    MovedOverPrefixes s t (p + 1) := by
  obtain ⟨hip, -⟩ := bytesLeft_prefix hw hin hu
  obtain rfl := exec_prefixW64_eq hu
  obtain ⟨hpre, hmoved, hslots, hmem⟩ := h
  refine ⟨fun k hk => ?_, by omega, fun i hi => ?_, hmem⟩
  · cases k with
    | zero => exact ⟨hin, hb⟩
    | succ k =>
      have hnext := hpre k (by omega)
      rw [hip, Nat.add_right_comm] at hnext
      exact hnext
  · exact (hslots i hi).trans ((getReg_advance s 1 i).trans (if_neg hi))

theorem boundary_safe (s : State) : (boundary s).safe := by
  intro f
  rw [boundary_phase]
  split <;> simp

/-- Where `finish` answers a faulted state the instruction took the fault, since the boundary check gives none. -/
theorem finish_eq_raise_of_faulted {s u : State} {i : Instr} {w : Width} {f : EngineFault} (hw : s.phase = .executing w)
    (hi : i ≠ .prefixW64) (hu : exec i s = .next u) (hf : (finish u).phase = .halted (.faulted f)) :
    finish u = raise f s := by
  rcases exec_phase hi hu with hphase | ⟨g, hg⟩
  · rw [finish_of_executing (hphase.trans hw)] at hf
    exact absurd hf (boundary_safe u f)
  · rw [finish_of_halted hg] at hf ⊢
    exact (eachInstructionTakesOnlyItsOwnFault i s u w f hw hu hf).1

/-- An activation that ends in a fault has only moved the instruction pointer over the prefixes it scanned. -/
theorem movedOverPrefixes_of_activate_faulted {s t : State} {w : Width} {f : EngineFault} (hw : s.cfg.wf)
    (hs : s.phase = .executing w) (h : activate s = .next t) (hf : t.phase = .halted (.faulted f)) :
    ∃ p, MovedOverPrefixes s t p := by
  refine activateFrom_ind
    (P := fun s t => s.cfg.wf → (∃ w, s.phase = .executing w) → t.phase = .halted (.faulted f) →
      ∃ p, MovedOverPrefixes s t p)
    ?noByte ?badFetch ?run ?scan _ s t hw rfl h hw ⟨w, hs⟩ hf
  case noByte => exact fun s _ _ _ _ => ⟨0, movedOverPrefixes_raise _ s⟩
  case badFetch => exact fun s g _ _ _ _ => ⟨0, movedOverPrefixes_raise g s⟩
  case run =>
    rintro s i u - hi hu - ⟨w, hs⟩ hf
    rw [finish_eq_raise_of_faulted hs hi hu hf]
    exact ⟨0, movedOverPrefixes_raise f s⟩
  case scan =>
    intro s u t _ hin hb hu ih hw _ hf
    obtain ⟨hcfg, -⟩ := exec_keeps_cfg_token hu
    obtain ⟨p, hp⟩ := ih (hcfg ▸ hw) ⟨_, congrArg State.phase (exec_prefixW64_eq hu)⟩ hf
    exact ⟨p + 1, hp.of_prefix hw hin hb hu⟩

/-- Settles O30: the step is the activation that `consume` begins. -/
theorem aFaultLeavesOnlyThePrefixesConsumed : Obligations.AFaultLeavesOnlyThePrefixesConsumed := by
  unfold Obligations.AFaultLeavesOnlyThePrefixesConsumed
  intro s t f hw hp hk h hf
  rw [step_of_token hp hk] at h
  obtain ⟨p, hpre, hip, hslots, hmem⟩ := movedOverPrefixes_of_activate_faulted (s := consume s) hw (consume_phase s) h hf
  obtain ⟨hcfg, htoken⟩ := activateFrom_keeps_cfg_token h
  exact ⟨p, hpre, hip, hslots, hmem, htoken, hcfg⟩

/-! ### There is no return from a halt (R341, R342) -/

/-- Settles O42: a halted machine makes no activation, and without one the engine's view stays. -/
theorem thereIsNoReturnFromAHalt : Obligations.ThereIsNoReturnFromAHalt := by
  unfold Obligations.ThereIsNoReturnFromAHalt
  intro ms s t e hs h
  have hnone := no_activation_of_halted hs h
  exact ⟨engineView_of_no_activation h hnone, hnone⟩

/-- Settles O44: a fault met on the way would still be the phase at the end. -/
theorem aSafeRunIsSafeAllTheWay : Obligations.ASafeRunIsSafeAllTheWay := by
  unfold Obligations.ASafeRunIsSafeAllTheWay
  rintro ms ms' s ⟨t, h, hsafe⟩
  obtain ⟨u, hu, hrest⟩ := runMoves_append.1 h
  refine ⟨u, hu, fun f hf => ?_⟩
  obtain ⟨hview, -⟩ := thereIsNoReturnFromAHalt ms' u t (.faulted f) hf hrest
  exact hsafe f ((congrArg EngineView.phase hview).trans hf)

end Sys2Proof.Machine
end

section
/-! Starts that fail, and the invariant at every start and grant (R231, R380, R382). -/

namespace Sys2Proof.Machine

theorem resetWith_of_not_fits {cfg : Config} {p : Process} (h : ¬ p.fits cfg) :
    resetWith cfg p = raise (.memoryFault p.loadAddress p.imageBytes.length) (construct cfg) :=
  start_of_not_fits h

/-- Settles O39: the start is fault entry from the constructed state, in which everything is zero. -/
theorem aProcessThatDoesNotFitFaultsAtStart : Obligations.AProcessThatDoesNotFitFaultsAtStart := by
  unfold Obligations.AProcessThatDoesNotFitFaultsAtStart
  intro cfg p hout
  rw [startNotification, resetWith_of_not_fits (Nat.not_le.2 hout)]
  exact ⟨rfl, construct_getReg cfg, rfl, rfl, rfl⟩

/-! ### The invariant -/

theorem construct_storageInv {cfg : Config} (hw : cfg.wf) : (construct cfg).StorageInv := ⟨hw, rfl, rfl⟩

theorem resetLoaded_storageInv {cfg : Config} {p : Process} (hw : cfg.wf) (hf : p.fits cfg) :
    (resetLoaded cfg p).StorageInv :=
  ⟨hw, startMemory_wf p cfg rfl, startMemory_within hw hf rfl⟩

/-- A Process that does not fit leaves a fault whose record is true: the image's range does not lie inside memory. -/
theorem resetWith_inv {cfg : Config} (p : Process) (hw : cfg.wf) : (resetWith cfg p).Inv := by
  by_cases hf : p.fits cfg
  · rw [resetWith_of_fits hf]
    exact (resetLoaded_storageInv hw hf).boundary_inv
  · rw [resetWith_of_not_fits hf]
    exact (construct_storageInv hw).raise_inv (truthful_of_not_inRange hf)

/-- No clause of the invariant mentions the token. -/
theorem State.Inv.withToken {s : State} (h : s.Inv) (b : Bool) : ({ s with token := b } : State).Inv :=
  ⟨h.config, h.canonical, h.bounded, h.atBoundary, h.notAtSentinel, h.exitIsNormal, h.faultIsTruthful⟩

theorem eq_of_grantStep_granted {s t : State} (h : grantStep s = .granted t) : t = { s with token := true } := by
  have hmove : applyMove s .grant = some t := by rw [applyMove, h]
  rcases applyMove_cases hmove with ⟨-, -, ht⟩ | ⟨hm, -⟩
  · exact ht
  · cases hm

/-- Settles O37: whether or not the Process fits, and for a grant since it fills the token slot only. -/
theorem startAndGrantMeetTheInvariant : Obligations.StartAndGrantMeetTheInvariant := by
  unfold Obligations.StartAndGrantMeetTheInvariant
  refine ⟨fun cfg p hw => resetWith_inv p hw, fun s t hs h => ?_⟩
  rw [eq_of_grantStep_granted h]
  exact hs.withToken true

/-! ### The model's reset state -/

/-- Settles O40: the reset procedure is evaluated for its parameters and Process. -/
theorem resetIsTheResetProcedure : Obligations.ResetIsTheResetProcedure := by
  unfold Obligations.ResetIsTheResetProcedure
  decide

/-- Settles O36: the reset state is what a reset leaves, which has the invariant. -/
theorem resetMeetsTheInvariant : Obligations.ResetMeetsTheInvariant := by
  unfold Obligations.ResetMeetsTheInvariant
  rw [resetIsTheResetProcedure]
  exact resetWith_inv _ (by decide)

end Sys2Proof.Machine
end
